-- ==== Sys2Proof/Word.lean ====
section
/-! DEFINITION. The words of the hardware: bytes, 16-bit quantities and the two-valued line types. -/

namespace Sys2Proof

/-- A byte on the wire (spec/00_scope.md section 7.1). -/
abbrev Byte := BitVec 8

/-- A 16-bit quantity: a coordinate, an offset component, a row width, a colour, a pixel
(spec/00_scope.md section 6, spec/20_memory.md R31). -/
abbrev Half := BitVec 16

/-- The mode of the data/command line `dc`: `C` = command, `D` = data (spec/10_state.md R12). -/
inductive DcMode where
  | C
  | D
  deriving DecidableEq, Repr, Inhabited

/-- The level of the reset line `rst` (spec/10_state.md R13). -/
inductive Level where
  | low
  | high
  deriving DecidableEq, Repr, Inhabited

end Sys2Proof
end

