-- ==== Sys2Proof/Config.lean ====
section
/-! DEFINITION. What an integrator fixes (the parameters of spec/00_scope.md section 6 and the configuration record
of R2), what the link may answer, and the free values: constants with no body, of which nothing can be proved. -/

namespace Sys2Proof

/-- The immutable configuration record `(W, H, bgr, invert)` (spec/00_scope.md R2, spec/10_state.md R17). -/
structure PanelCfg where
  width : Nat
  height : Nat
  bgr : Bool
  invert : Bool
  deriving DecidableEq, Repr

/-- The nine command bytes `OPC_*` (spec/30_encoding.md R58). -/
structure Opcodes where
  swreset : Byte
  slpout : Byte
  invon : Byte
  dispon : Byte
  caset : Byte
  raset : Byte
  ramwr : Byte
  madctl : Byte
  pixfmt : Byte
  deriving DecidableEq, Repr

/-- The parameter table `MADCTL_ARG` (spec/30_encoding.md R62). -/
structure MadctlTable where
  normal : Byte
  landscape : Byte
  landscapeSwapped : Byte
  inverted : Byte
  deriving DecidableEq, Repr

/-- The parameters of one implementation (spec/00_scope.md section 6). -/
structure Params where
  opc : Opcodes
  madctlArg : MadctlTable
  /-- `PIXFMT_ARG(false)` (spec/30_encoding.md R63). -/
  pixfmtRgb : Byte
  /-- `PIXFMT_ARG(true)` (spec/30_encoding.md R63). -/
  pixfmtBgr : Byte
  /-- `MADCTL_RESET`, `none` for a model that wants no assumption (spec/20_memory.md R44). -/
  madctlReset : Option Byte
  deriving DecidableEq, Repr

/-- The four timing parameters (spec/00_scope.md section 6). -/
inductive TimingParam where
  | rstLow
  | rstSettle
  | swreset
  | slpout
  deriving DecidableEq, Repr

/-- What the physical link answers to one BUSWRITE: `ok`, or `fault k` after `k` bytes (spec/40_bus_transport.md R72). -/
inductive BusOutcome where
  | ok
  | fault (k : Nat)
  deriving DecidableEq, Repr, Inhabited

/-- FREE VALUE (log 3): the link's answer to the n-th BUSWRITE call, once the answers held in `State.link` are used up
(spec/40_bus_transport.md R72: a draw, once per call, under no law). -/
opaque Config.linkOutcome : Nat → BusOutcome

/-- FREE VALUE (log 1): the level of `dc` at construction (spec/10_state.md R12: a draw from C and D). -/
opaque Config.dcAtConstruction : DcMode

/-- FREE VALUE (log 1): the level of `rst` at construction (spec/10_state.md R13: a draw from 0 and 1). -/
opaque Config.rstAtConstruction : Level

/-- FREE VALUE (log 5): `PIXFMT_ARG(true)`, which the spec leaves open with no default (spec/30_encoding.md R63). -/
opaque Config.pixfmtArgBgr : Byte

/-- FREE VALUE (log 8): `XFORM(a)`, a bijection from wire coordinates to panel positions (spec/20_memory.md R51). -/
opaque Config.xform : Byte → Equiv.Perm (Half × Half)

/-- FREE VALUE (log 9): the minimum duration of each delay, an open parameter no rule depends on
(spec/00_scope.md R6, spec/70_reset_and_hazards.md R146). -/
opaque Config.minDuration : TimingParam → Nat

/-- FREE VALUE (log 9): `F_SCK`, the serial clock rate fixed at construction, an open parameter no rule depends on
(spec/40_bus_transport.md R73). -/
opaque Config.clockRate : Nat

end Sys2Proof
end

