-- ==== Sys2Proof/Syntax.lean ====
section
/-! DEFINITION. Syntax: the operations of the block, the commands of the controller, and what a request and a wire
frame look like. One constructor of `Instr` per row of spec/opcode_table.json. -/

namespace Sys2Proof

/-- The four orientations (spec/10_state.md R15, closed at four by spec/90_conflicts.md C7). -/
inductive Orientation where
  | normal
  | landscape
  | landscapeSwapped
  | inverted
  deriving DecidableEq, Repr

/-- Every row of spec/opcode_table.json. -/
inductive Instr where
  -- host operations (spec/30_encoding.md R66)
  /-- RESET (spec/42_controller.md R90). -/
  | reset
  /-- INITIALIZE (spec/42_controller.md R91). -/
  | initialise
  /-- SET_ORIENTATION(o) (spec/42_controller.md R92). -/
  | setOrientation (o : Orientation)
  /-- SET_OFFSET(dx, dy), signed (spec/42_controller.md R93). -/
  | setOffset (dx dy : Half)
  /-- SET_WINDOW(x0, y0, x1, y1), unsigned, inclusive corners (spec/42_controller.md R94). -/
  | setWindow (x0 y0 x1 y1 : Half)
  /-- WRITE_PIXELS(bytes) (spec/42_controller.md R95). -/
  | writePixels (bytes : List Byte)
  /-- CLEAR(color) (spec/42_controller.md R96). -/
  | clear (color : Half)
  /-- DRAW((bytes, roww), (x, y)) (spec/43_blit.md R100). -/
  | draw (x y roww : Half) (bytes : List Byte)
  /-- RESERVED_HOST: selectors 0x8 to 0xF, `r` the three low bits (spec/30_encoding.md R68). -/
  | reservedHost (r : BitVec 3)
  -- internal operations, no numeric encoding (spec/30_encoding.md R66)
  /-- BUSWRITE(bs) (spec/40_bus_transport.md R70). -/
  | busWrite (bs : List Byte)
  /-- HWRESET (spec/41_framer.md R80). -/
  | hwReset
  /-- SENDCMD(op, args) (spec/41_framer.md R81). -/
  | sendCmd (op : Byte) (args : List Byte)
  /-- SENDPIX(bytes) (spec/41_framer.md R82). -/
  | sendPix (bytes : List Byte)
  -- wire commands (spec/30_encoding.md R56, R58)
  /-- SWRESET, format WC0 (spec/20_memory.md R46). -/
  | swreset
  /-- SLPOUT, format WC0 (spec/20_memory.md R46). -/
  | slpout
  /-- INVON, format WC0 (spec/20_memory.md R46). -/
  | invon
  /-- DISPON, format WC0 (spec/20_memory.md R46). -/
  | dispon
  /-- CASET(S, E), format WC4 (spec/20_memory.md R48). -/
  | caset (s e : Half)
  /-- RASET(S, E), format WC4 (spec/20_memory.md R48). -/
  | raset (s e : Half)
  /-- RAMWR, format WC0 (spec/20_memory.md R49). -/
  | ramwr
  /-- MADCTL(arg), format WC1 (spec/20_memory.md R47). -/
  | madctl (arg : Byte)
  /-- PIXFMT(arg), format WC1 (spec/20_memory.md R46). -/
  | pixfmt (arg : Byte)
  /-- PIXELS: data-mode bytes, format PX, no opcode (spec/20_memory.md R50). -/
  | pixels (bytes : List Byte)
  deriving DecidableEq, Repr

/-- The host request record (spec/30_encoding.md R65). -/
structure Request where
  op : BitVec 4
  a : Half := 0
  b : Half := 0
  c : Half := 0
  d : Half := 0
  payload : List Byte := []
  deriving DecidableEq, Repr

/-- A wire frame as it stands in the framed byte stream: bytes, each with the mode it is sent under
(spec/00_scope.md R5, spec/30_encoding.md R55). -/
abbrev Frame := List (DcMode × Byte)

/-- One thing the machine is given to run: a host request, or (for the wire rows of the opcode table) a wire frame.
The spec's host presents requests only (spec/00_scope.md R1); log 7. -/
inductive Input where
  | request (r : Request)
  | frame (f : Frame)
  deriving DecidableEq, Repr

/-- Why the decoder refuses an input. -/
inductive Reject where
  /-- A request whose selector is 0x8 to 0xF (spec/30_encoding.md R68). -/
  | reservedSelector
  /-- A SET_ORIENTATION whose `a` is 4 or more (spec/30_encoding.md R67, R68). -/
  | reservedOrientation
  /-- A frame whose command byte is none of the nine (spec/30_encoding.md R58, R59). -/
  | unknownCommand
  /-- A memory-access-control frame whose argument is none of the four bytes of R62 (spec/30_encoding.md R68: "every
  memory-access-control byte it emits is one of the four"). -/
  | foreignOrientationByte
  /-- A frame that is none of the formats WC0, WC1, WC4, PX (spec/30_encoding.md R56, R57). -/
  | malformedFrame
  deriving DecidableEq, Repr

/-- The decoder's verdict on an input. -/
inductive Decoded where
  | instr (i : Instr)
  | rejected (r : Reject)
  deriving DecidableEq, Repr

end Sys2Proof
end

