-- ==== Sys2Proof/Machine/Params.lean ====
section
/-! DEFINITION. The default values of the parameters (spec/30_encoding.md R58, R62, R63; spec/20_memory.md R44; log 4),
and the look-ups in the parameter tables. -/

namespace Sys2Proof.Machine

/-- PRESUMED (log 4): the default command bytes of spec/30_encoding.md R58. -/
def defaultOpcodes : Opcodes :=
  { swreset := 0x01, slpout := 0x11, invon := 0x21, dispon := 0x29, caset := 0x2A, raset := 0x2B,
    ramwr := 0x2C, madctl := 0x36, pixfmt := 0x3A }

/-- PRESUMED (log 4): the default memory-access-control bytes of spec/30_encoding.md R62. -/
def defaultMadctlTable : MadctlTable :=
  { normal := 0x00, landscape := 0x60, landscapeSwapped := 0xA0, inverted := 0xC0 }

/-- The parameters at their defaults; `PIXFMT_ARG(true)` has none and is the free value of log 5. -/
def defaultParams : Params :=
  { opc := defaultOpcodes, madctlArg := defaultMadctlTable, pixfmtRgb := 0x05,
    pixfmtBgr := Config.pixfmtArgBgr, madctlReset := some defaultMadctlTable.normal }

/-- DESIGN CHOICE (log 2): the configuration of the document's one example (spec/00_scope.md section 6), with the
flags of the test vectors (spec/95_test_vectors.md section 1). -/
def defaultPanel : PanelCfg :=
  { width := 128, height := 160, bgr := false, invert := false }

/-- `MADCTL_ARG(o)` (spec/30_encoding.md R62). -/
def madctlArgOf (q : Params) (o : Orientation) : Byte :=
  match o with
  | .normal => q.madctlArg.normal
  | .landscape => q.madctlArg.landscape
  | .landscapeSwapped => q.madctlArg.landscapeSwapped
  | .inverted => q.madctlArg.inverted

/-- The four memory-access-control bytes (spec/30_encoding.md R62). -/
def madctlBytes (q : Params) : List Byte :=
  [q.madctlArg.normal, q.madctlArg.landscape, q.madctlArg.landscapeSwapped, q.madctlArg.inverted]

/-- `PIXFMT_ARG(bgr)` (spec/30_encoding.md R63). -/
def pixfmtArgOf (q : Params) (bgr : Bool) : Byte :=
  if bgr then q.pixfmtBgr else q.pixfmtRgb

/-- The nine commands by name (spec/30_encoding.md R58). -/
inductive Command where
  | swreset
  | slpout
  | invon
  | dispon
  | caset
  | raset
  | ramwr
  | madctl
  | pixfmt
  deriving DecidableEq, Repr

/-- The nine command bytes as a list, in the order of spec/30_encoding.md R58. -/
def opcodeList (c : Opcodes) : List Byte :=
  [c.swreset, c.slpout, c.invon, c.dispon, c.caset, c.raset, c.ramwr, c.madctl, c.pixfmt]

/-- Which command a command byte is, if any of the nine (spec/30_encoding.md R58). -/
def commandOf (c : Opcodes) (b : Byte) : Option Command :=
  if b = c.swreset then some .swreset
  else if b = c.slpout then some .slpout
  else if b = c.invon then some .invon
  else if b = c.dispon then some .dispon
  else if b = c.caset then some .caset
  else if b = c.raset then some .raset
  else if b = c.ramwr then some .ramwr
  else if b = c.madctl then some .madctl
  else if b = c.pixfmt then some .pixfmt
  else none

/-- `NARGS` (spec/30_encoding.md R56, spec/20_memory.md R45). -/
def nargs (k : Command) : Nat :=
  match k with
  | .swreset | .slpout | .invon | .dispon | .ramwr => 0
  | .pixfmt | .madctl => 1
  | .caset | .raset => 4

end Sys2Proof.Machine
end

