-- ==== Sys2Proof/WellFormed.lean ====
section
/-! DEFINITION. Well-formedness: which terms spell an operation, and the premises the spec puts on the configuration
record and on the parameters. -/

namespace Sys2Proof

/-- An operation the spec spells, under a parameter set. RESERVED_HOST "spells no operation", and a memory-access-control
command carries one of the four bytes of R62 (spec/30_encoding.md R68); every other constructor's operands have exactly the
widths of the spec, so every term of it is well-formed. -/
def Instr.wf (q : Params) (i : Instr) : Bool :=
  match i with
  | .reservedHost _ => false
  | .madctl arg => decide (arg ∈ Machine.madctlBytes q)
  | _ => true

/-- The internal operations, "no numeric encoding exists" (spec/30_encoding.md R66, spec/00_scope.md R1). -/
def Instr.internal : Instr → Bool
  | .busWrite _ | .hwReset | .sendCmd _ _ | .sendPix _ => true
  | _ => false

/-- The eight operations the host can reach (spec/30_encoding.md R66). -/
def Instr.hostOperation : Instr → Bool
  | .reset | .initialise | .setOrientation _ | .setOffset _ _ | .setWindow _ _ _ _ | .writePixels _ | .clear _
  | .draw _ _ _ _ => true
  | _ => false

/-- The configuration invariant `1 <= W <= 65535`, `1 <= H <= 65535` (spec/00_scope.md R2). -/
abbrev PanelCfg.wf (c : PanelCfg) : Prop :=
  (1 ≤ c.width ∧ c.width ≤ 65535) ∧ (1 ≤ c.height ∧ c.height ≤ 65535)

/-- All that may be assumed of the parameters: nine distinct command bytes (spec/30_encoding.md R58) and four
pairwise distinct memory-access-control bytes (R62). -/
abbrev Params.wf (q : Params) : Prop :=
  (Machine.opcodeList q.opc).Nodup ∧
  (Machine.madctlBytes q).Nodup

end Sys2Proof
end

