-- ==== Sys2Proof/Decode.lean ====
section
/-! DEFINITION. The decoder, total on every request and every wire frame and rejecting by name, and after it the
encoder, both from the tables of spec/30_encoding.md. -/

namespace Sys2Proof

/-- The orientation of a code, `a[1:0]` with `a[15:2]` zero (spec/30_encoding.md R67). -/
def orientationOfCode (a : Half) : Option Orientation :=
  if a = 0 then some .normal
  else if a = 1 then some .landscape
  else if a = 2 then some .landscapeSwapped
  else if a = 3 then some .inverted
  else none

/-- The host request, selector by selector; operand slots an operation does not use are ignored
(spec/30_encoding.md R65, R66, R68). -/
def decodeRequest (r : Request) : Decoded :=
  if r.op = 0x0 then .instr .reset
  else if r.op = 0x1 then .instr .initialise
  else if r.op = 0x2 then
    match orientationOfCode r.a with
    | some o => .instr (.setOrientation o)
    | none => .rejected .reservedOrientation
  else if r.op = 0x3 then .instr (.setOffset r.a r.b)
  else if r.op = 0x4 then .instr (.setWindow r.a r.b r.c r.d)
  else if r.op = 0x5 then .instr (.writePixels r.payload)
  else if r.op = 0x6 then .instr (.clear r.a)
  else if r.op = 0x7 then .instr (.draw r.a r.b r.c r.payload)
  else .rejected .reservedSelector

/-- Every byte of the frame is a data byte. -/
def allData (f : Frame) : Bool :=
  f.all fun x => x.1 == .D

/-- A command with its argument bytes, all of them data bytes (spec/30_encoding.md R56). A memory-access-control byte is
one of the four of R62: the block emits no other (R68). -/
def decodeCommand (q : Params) (k : Machine.Command) (args : List Byte) : Decoded :=
  match k, args with
  | .swreset, [] => .instr .swreset
  | .slpout, [] => .instr .slpout
  | .invon, [] => .instr .invon
  | .dispon, [] => .instr .dispon
  | .ramwr, [] => .instr .ramwr
  | .madctl, [a] => if a ∈ Machine.madctlBytes q then .instr (.madctl a) else .rejected .foreignOrientationByte
  | .pixfmt, [a] => .instr (.pixfmt a)
  | .caset, [s1, s0, e1, e0] => .instr (.caset (s1 ++ s0) (e1 ++ e0))
  | .raset, [s1, s0, e1, e0] => .instr (.raset (s1 ++ s0) (e1 ++ e0))
  | _, _ => .rejected .malformedFrame

/-- A wire frame: a command byte under C and its arguments under D, or data bytes only (spec/30_encoding.md R55 to
R58). -/
def decodeFrame (q : Params) (f : Frame) : Decoded :=
  match f with
  | (.C, b) :: rest =>
    match Machine.commandOf q.opc b with
    | none => .rejected .unknownCommand
    | some k => if allData rest then decodeCommand q k (rest.map Prod.snd) else .rejected .malformedFrame
  | _ => if allData f then .instr (.pixels (f.map Prod.snd)) else .rejected .malformedFrame

/-- The decoder. The command bytes are parameters (spec/30_encoding.md R58), so a frame is read under `q`. -/
def decode (q : Params) (x : Input) : Decoded :=
  match x with
  | .request r => decodeRequest r
  | .frame f => decodeFrame q f

/-- The code of an orientation (spec/30_encoding.md R67). -/
def codeOfOrientation (o : Orientation) : Half :=
  match o with
  | .normal => 0
  | .landscape => 1
  | .landscapeSwapped => 2
  | .inverted => 3

/-- The high byte of a 16-bit quantity, `v[15:8]` (spec/00_scope.md section 7.1). -/
def hiByte (v : Half) : Byte := v.extractLsb' 8 8

/-- The low byte of a 16-bit quantity, `v[7:0]` (spec/00_scope.md section 7.1). -/
def loByte (v : Half) : Byte := v.extractLsb' 0 8

/-- Bytes sent under D. -/
def dataBytes (bs : List Byte) : Frame := bs.map fun b => (.D, b)

/-- A command byte under C and its arguments under D (spec/30_encoding.md R55). -/
def commandFrame (op : Byte) (args : List Byte) : Input := .frame ((.C, op) :: dataBytes args)

/-- The encoder: the request or the frame that spells an operation; none for what has no encoding
(spec/30_encoding.md R66, R68: an internal operation, the reserved range, a memory-access-control byte that is none of the
four). Operand slots an operation does not use are zero. -/
def encode (q : Params) (i : Instr) : Option Input :=
  match i with
  | .reset => some (.request { op := 0x0 })
  | .initialise => some (.request { op := 0x1 })
  | .setOrientation o => some (.request { op := 0x2, a := codeOfOrientation o })
  | .setOffset dx dy => some (.request { op := 0x3, a := dx, b := dy })
  | .setWindow x0 y0 x1 y1 => some (.request { op := 0x4, a := x0, b := y0, c := x1, d := y1 })
  | .writePixels bytes => some (.request { op := 0x5, payload := bytes })
  | .clear color => some (.request { op := 0x6, a := color })
  | .draw x y roww bytes => some (.request { op := 0x7, a := x, b := y, c := roww, payload := bytes })
  | .reservedHost _ => none
  | .busWrite _ => none
  | .hwReset => none
  | .sendCmd _ _ => none
  | .sendPix _ => none
  | .swreset => some (commandFrame q.opc.swreset [])
  | .slpout => some (commandFrame q.opc.slpout [])
  | .invon => some (commandFrame q.opc.invon [])
  | .dispon => some (commandFrame q.opc.dispon [])
  | .caset s e => some (commandFrame q.opc.caset [hiByte s, loByte s, hiByte e, loByte e])
  | .raset s e => some (commandFrame q.opc.raset [hiByte s, loByte s, hiByte e, loByte e])
  | .ramwr => some (commandFrame q.opc.ramwr [])
  | .madctl arg => if arg ∈ Machine.madctlBytes q then some (commandFrame q.opc.madctl [arg]) else none
  | .pixfmt arg => some (commandFrame q.opc.pixfmt [arg])
  | .pixels bytes => some (.frame (dataBytes bytes))

/-- The input that a word of the opcode table stands for. A host row gives the four bits of its selector, every other
slot zero. A wire row gives its command byte, its argument bytes zero. The table numbers both from bit 0, so the word 1
is both INITIALIZE's selector and SWRESET's default byte: it is read as the host's (log 7). -/
def inputOfWord (q : Params) (w : Nat) : Input :=
  if w < 16 then .request { op := BitVec.ofNat 4 w }
  else
    let b : Byte := BitVec.ofNat 8 w
    let n := match Machine.commandOf q.opc b with
      | some k => Machine.nargs k
      | none => 0
    commandFrame b (List.replicate n 0)

/-- The instruction the decoder reads from a word numbered as spec/opcode_table.json numbers it (log 7); a word of more
than eight bits stands for no row. -/
def decodeTableWord (_nbits w : Nat) : Option Instr :=
  if w < 256 then
    match decode Machine.defaultParams (inputOfWord Machine.defaultParams w) with
    | .instr i => some i
    | .rejected _ => none
  else none

end Sys2Proof
end

