-- ==== Sys2Proof/Machine/State.lean ====
section
/-! DEFINITION. The state of the machine as plain data: the block's own (spec/10_state.md), the reference peripheral's
(spec/20_memory.md R42), the parameters, the run's trace and results, and the environment's inputs; and the state at
reset. -/

namespace Sys2Proof.Machine

/-- The chip-select line (spec/10_state.md R11). -/
inductive ChipSelect where
  | released
  | asserted
  deriving DecidableEq, Repr

/-- The lifecycle state of the block (spec/10_state.md R14). -/
inductive Fsm where
  | uninitialized
  | awaitingInit
  | ready
  deriving DecidableEq, Repr

/-- The four error kinds (spec/60_exceptions.md R110). -/
inductive ErrKind where
  | busFault
  | sequenceError
  | boundsError
  | malformedInput
  deriving DecidableEq, Repr

/-- The result of an operation (spec/00_scope.md R4). -/
inductive Result where
  | ok
  | err (k : ErrKind)
  deriving DecidableEq, Repr

/-- The wire events (spec/00_scope.md section 7.2). -/
inductive Event where
  | rst (l : Level)
  | dc (m : DcMode)
  | cs (a : ChipSelect)
  | tx (b : Byte)
  | wait (p : TimingParam)
  deriving DecidableEq, Repr

/-- The relocation pair (spec/10_state.md R16); each component is read as a signed integer. -/
structure Offset where
  dx : Half
  dy : Half
  deriving DecidableEq, Repr

/-- Frame memory: cells in rising order of address. An address that is not listed has no known content
(spec/20_memory.md R42: "`none` = content unknown"). How a pixel lies in it is log 6. -/
abbrev Memory := List Host.Cell

/-- The lifecycle phase of the controller (spec/20_memory.md R42, R43). -/
inductive PMode where
  | unknown
  | resetLow
  | resetWait
  | sleep
  | swResetWait
  | wakeWait
  | awake
  deriving DecidableEq, Repr

/-- The reference peripheral's state (spec/20_memory.md R42); its construction values are the defaults here. -/
structure Periph where
  pmode : PMode := .unknown
  /-- In `resetLow`: the pulse has lasted `T_RST_LOW`. -/
  lowOk : Bool := false
  madctl : Option Byte := none
  pixfmt : Option Byte := none
  inv : Bool := false
  on : Bool := false
  xs : Option Half := none
  xe : Option Half := none
  ys : Option Half := none
  ye : Option Half := none
  /-- The command being received with its arguments so far; `none` is `idle`. -/
  cur : Option (Byte × List Byte) := none
  /-- The write pointer; `none` is not primed or window full. -/
  wp : Option (Half × Half) := none
  /-- First byte of a pixel whose second byte has not arrived. -/
  half : Option Byte := none
  fm : Memory := []
  deriving DecidableEq, Repr

/-- The machine. -/
structure State where
  /-- Chip-select (spec/10_state.md R11). -/
  cs : ChipSelect
  /-- Data/command line (spec/10_state.md R12). -/
  dc : DcMode
  /-- Reset line (spec/10_state.md R13). -/
  rst : Level
  /-- Lifecycle state (spec/10_state.md R14). -/
  fsm : Fsm
  /-- Orientation last set (spec/10_state.md R15). -/
  orient : Orientation
  /-- Relocation pair (spec/10_state.md R16). -/
  offset : Offset
  /-- Configuration record, immutable (spec/10_state.md R17). -/
  cfg : PanelCfg
  /-- The implementation's parameters, immutable (spec/00_scope.md section 6). -/
  params : Params
  /-- The controller (spec/20_memory.md R42). -/
  periph : Periph
  /-- The pin trace so far, oldest event first (spec/00_scope.md R5). -/
  trace : List Event
  /-- The results so far, oldest first (spec/70_reset_and_hazards.md R134). -/
  results : List Result
  /-- What is presented next, first to run first (spec/70_reset_and_hazards.md R133, log 7). -/
  inputs : List Input
  /-- The link's answers already fixed, one per BUSWRITE call, next first (spec/40_bus_transport.md R72, log 3). -/
  link : List BusOutcome
  /-- The MODEL'S OWN counter of BUSWRITE calls, for the free value `Config.linkOutcome` (log 3). -/
  draws : Nat
  deriving DecidableEq, Repr

/-- Why the machine stops with a fault: never. Every failure of the block is a result returned to the host
(spec/60_exceptions.md R116), so the type has no constructor and no definition of the model raises one. -/
inductive Fault where
  deriving DecidableEq, Repr

/-- Why the model gives no next state. -/
inductive Refusal where
  /-- An instruction with no meaning yet; raised only by `exec`'s refused arms. Safe. -/
  | notModelled (mnemonic : String)
  /-- An input that spells no operation; raised by `step` where the decoder rejects, and by the meaning of
  RESERVED_HOST (spec/30_encoding.md R68: "The decoder refuses it; the block takes no step, emits no event, changes no
  state and produces no response"). Safe. -/
  | spellsNoOperation (r : Reject)
  /-- A construction with W or H outside the invariant; raised by `State.construct` (spec/00_scope.md R2: "refused by
  the model (no block exists)"). Safe. -/
  | noBlock
  deriving DecidableEq, Repr

/-- The construction state of a configuration record and a parameter set (spec/10_state.md R23): `dc` and `rst` are
free values (log 1), the controller is `Unknown` and knows nothing (spec/20_memory.md R42). -/
def State.initial (c : PanelCfg) (q : Params) : State :=
  { cs := .released, dc := Config.dcAtConstruction, rst := Config.rstAtConstruction, fsm := .uninitialized,
    orient := .normal, offset := { dx := 0, dy := 0 }, cfg := c, params := q, periph := {}, trace := [], results := [],
    inputs := [], link := [], draws := 0 }

/-- Construction (spec/70_reset_and_hazards.md R130), refused outside the configuration invariant
(spec/00_scope.md R2). -/
def State.construct (c : PanelCfg) (q : Params) : Host.Outcome State Fault Refusal :=
  if c.wf then .next (State.initial c q) else .refused .noBlock

/-- The machine right after reset: construction (spec/10_state.md R23) with the configuration of log 2 and the
parameters of log 4. -/
def State.reset : State := State.initial defaultPanel defaultParams

end Sys2Proof.Machine
end

