-- ==== Sys2Proof/Machine/FrameMemory.lean ====
section
/-! DEFINITION. The named operations over frame memory (spec/20_memory.md R30, R31, R42): bytes at addresses, and the
16-bit pixel cells built from them in one place (log 6). -/

namespace Sys2Proof.Machine

/-- The canonical form: addresses strictly rising and inside the address space of 65536 columns by 65536 rows of two
bytes each (spec/20_memory.md R30). An unlisted address reads as no value, so no listed byte can equal it. -/
abbrev Memory.wf (m : Memory) : Prop :=
  (m.map Prod.fst).Pairwise (· < ·) ∧ ∀ a ∈ m.map Prod.fst, a < 8589934592

/-- The byte at an address, `none` where the content is unknown. -/
def Memory.read (m : Memory) (a : Nat) : Option Byte :=
  match m with
  | [] => none
  | (a', b) :: rest => if a = a' then some b else Memory.read rest a

/-- Write the byte at an address, keeping the canonical form. -/
def Memory.write (m : Memory) (a : Nat) (b : Byte) : Memory :=
  match m with
  | [] => [(a, b)]
  | (a', b') :: rest =>
    if a < a' then (a, b) :: (a', b') :: rest
    else if a = a' then (a, b) :: rest
    else (a', b') :: Memory.write rest a b

/-- The address of the first (high) byte of the cell at column `x`, row `y`; the low byte follows (log 6). -/
def cellAddr (x y : Half) : Nat := 2 * (65536 * y.toNat + x.toNat)

/-- `FM[x, y]` (spec/20_memory.md R42): the 16-bit word, or `none` where its content is unknown. -/
def Memory.cell (m : Memory) (x y : Half) : Option Half :=
  match m.read (cellAddr x y), m.read (cellAddr x y + 1) with
  | some h, some l => some (h ++ l)
  | _, _ => none

/-- `FM[x, y] <- h*256 + l` (spec/20_memory.md R50). -/
def Memory.setCell (m : Memory) (x y : Half) (h l : Byte) : Memory :=
  (m.write (cellAddr x y) h).write (cellAddr x y + 1) l

end Sys2Proof.Machine
end

