-- ==== Sys2Proof/Machine/Peripheral.lean ====
section
/-! DEFINITION. The reference peripheral model of spec/20_memory.md section 6: what the controller does with each wire
event. Environment, not block; it "sends everything else to `Unknown`". -/

namespace Sys2Proof.Machine

/-- `pmode <- Unknown` (spec/20_memory.md R52), and the content of frame memory is no longer known: "any value" after a
bus fault (spec/93_implementation_defined.md U2), nothing promised after any other loss (spec/20_memory.md section 6). DESIGN
CHOICE (log 14): the other losses forget frame memory too, and the other registers keep what they held. -/
def Periph.lose (p : Periph) : Periph := { p with pmode := .unknown, fm := [] }

/-- The register effects of a reset, `madctl .. FM` (spec/20_memory.md R44, R46; log 10). -/
def Periph.forget (p : Periph) : Periph :=
  { p with madctl := none, pixfmt := none, xs := none, xe := none, ys := none, ye := none, inv := false, on := false,
           fm := [] }

/-- `RST(0)`, in any phase (spec/20_memory.md R44). -/
def Periph.onRstLow (p : Periph) : Periph :=
  { p.forget with pmode := .resetLow, lowOk := false, cur := none, wp := none, half := none }

/-- `RST(1)` (spec/20_memory.md R44). -/
def Periph.onRstHigh (p : Periph) : Periph :=
  match p.pmode with
  | .resetLow => if p.lowOk then { p with pmode := .resetWait } else p.lose
  | _ => p

/-- `WAIT(w)` (spec/20_memory.md R44, R46); every other pair changes nothing. -/
def Periph.onWait (q : Params) (w : TimingParam) (p : Periph) : Periph :=
  match p.pmode, w with
  | .resetLow, .rstLow => { p with lowOk := true }
  | .resetWait, .rstSettle => { p with pmode := .sleep, madctl := q.madctlReset }
  | .swResetWait, .swreset => { p with pmode := .sleep, madctl := q.madctlReset }
  | .wakeWait, .slpout => { p with pmode := .awake }
  | _, _ => p

/-- A phase in which a byte has a taker (spec/20_memory.md R45). -/
def Periph.listens (p : Periph) : Bool :=
  p.pmode == .sleep || p.pmode == .awake

/-- The command being received still lacks arguments (spec/20_memory.md R45). -/
def Periph.midCommand (c : Opcodes) (p : Periph) : Bool :=
  match p.cur with
  | none => false
  | some (op, args) =>
    match commandOf c op with
    | none => false
    | some k => args.length < nargs k

/-- OPC_RAMWR in Awake (spec/20_memory.md R49): prime the write pointer at the window's first cell. -/
def Periph.prime (p : Periph) : Periph :=
  match p.xs, p.xe, p.ys, p.ye, p.pixfmt with
  | some xs, some xe, some ys, some ye, some _ =>
    if xs.toNat ≤ xe.toNat ∧ ys.toNat ≤ ye.toNat then { p with wp := some (xs, ys), half := none } else p.lose
  | _, _, _, _, _ => p.lose

/-- OPC_MADCTL in Awake (spec/20_memory.md R47): a change forgets frame memory (no re-mapping is supplied: DESIGN CHOICE,
log 8). -/
def Periph.setMadctl (a : Byte) (p : Periph) : Periph :=
  { p with fm := if p.madctl = some a then p.fm else [], madctl := some a, wp := none }

/-- A command whose arguments are complete (spec/20_memory.md R46 to R49; outside the phases listed, `Unknown`, log 11).
A memory-access-control byte that is none of the four of spec/30_encoding.md R62 sends the controller to `Unknown` (R68,
wire side; log 13). -/
def Periph.execute (q : Params) (k : Command) (args : List Byte) (p : Periph) : Periph :=
  match k, args, p.pmode with
  | .swreset, [], .sleep => { p.forget with pmode := .swResetWait }
  | .swreset, [], .awake => { p.forget with pmode := .swResetWait }
  | .slpout, [], .sleep => { p with pmode := .wakeWait }
  | .invon, [], .awake => { p with inv := true }
  | .dispon, [], .awake => { p with on := true }
  | .ramwr, [], .awake => p.prime
  | .pixfmt, [a], .awake => { p with pixfmt := some a }
  | .madctl, [a], .awake => if a ∈ madctlBytes q then p.setMadctl a else p.lose
  | .caset, [a0, a1, a2, a3], .awake => { p with xs := some (a0 ++ a1), xe := some (a2 ++ a3), wp := none }
  | .raset, [a0, a1, a2, a3], .awake => { p with ys := some (a0 ++ a1), ye := some (a2 ++ a3), wp := none }
  | _, _, _ => p.lose

/-- A byte sent under C (spec/20_memory.md R45, half-pixel check R52 b). -/
def Periph.onCommandByte (q : Params) (b : Byte) (p : Periph) : Periph :=
  if p.midCommand q.opc then p.lose
  else if !p.listens then p.lose
  else if p.half.isSome then p.lose
  else
    match commandOf q.opc b with
    | none => p.lose
    | some k => if nargs k = 0 then Periph.execute q k [] { p with cur := some (b, []) } else { p with cur := some (b, []) }

/-- The write pointer after the cell `(x, y)` of the window has been written (spec/20_memory.md R50). -/
def nextCell (xs xe ye x y : Half) : Option (Half × Half) :=
  if x.toNat < xe.toNat then some (x + 1, y)
  else if y.toNat < ye.toNat then some (xs, y + 1)
  else none

/-- A data byte taken as a pixel byte (spec/20_memory.md R50). -/
def Periph.onPixelByte (b : Byte) (p : Periph) : Periph :=
  match p.wp, p.xs, p.xe, p.ye with
  | some (x, y), some xs, some xe, some ye =>
    match p.half with
    | none => { p with half := some b }
    | some h => { p with fm := p.fm.setCell x y h b, half := none, wp := nextCell xs xe ye x y }
  | _, _, _, _ => p.lose

/-- A byte sent under D (spec/20_memory.md R45). -/
def Periph.onDataByte (q : Params) (b : Byte) (p : Periph) : Periph :=
  if !p.listens then p.lose
  else
    match p.cur with
    | none => p.lose
    | some (op, args) =>
      match commandOf q.opc op with
      | none => p.lose
      | some k =>
        if args.length < nargs k then
          if args.length + 1 = nargs k then Periph.execute q k (args ++ [b]) { p with cur := some (op, args ++ [b]) }
          else { p with cur := some (op, args ++ [b]) }
        else if k = .ramwr ∧ args = [] then p.onPixelByte b
        else p.lose

/-- One byte `(m, b)` of the framed byte stream (spec/20_memory.md R45). -/
def Periph.receive (q : Params) (m : DcMode) (b : Byte) (p : Periph) : Periph :=
  match m with
  | .C => p.onCommandByte q b
  | .D => p.onDataByte q b

/-- One wire event, `m` the mode last driven on `dc`; CS and DC events by themselves change nothing
(spec/20_memory.md R43). -/
def Periph.onEvent (q : Params) (m : DcMode) (p : Periph) (e : Event) : Periph :=
  match e with
  | .rst .low => p.onRstLow
  | .rst .high => p.onRstHigh
  | .dc _ => p
  | .cs _ => p
  | .tx b => p.receive q m b
  | .wait w => p.onWait q w

/-- The mode last driven on `dc` after one event (spec/00_scope.md R5). -/
def modeAfter (m : DcMode) (e : Event) : DcMode :=
  match e with
  | .dc m' => m'
  | _ => m

/-- A whole trace consumed event by event, `m` the mode on `dc` at its start (spec/20_memory.md section 6). -/
def Periph.replay (q : Params) (m : DcMode) (p : Periph) (es : List Event) : Periph :=
  match es with
  | [] => p
  | e :: rest => Periph.replay q (modeAfter m e) (p.onEvent q m e) rest

/-- The panel position of a wire coordinate under a memory-access-control byte: identity under `MADCTL_ARG(normal)`,
the open bijection `XFORM` otherwise (spec/20_memory.md R51, log 8). -/
def panelPosition (q : Params) (a : Byte) (c : Half × Half) : Half × Half :=
  if a = q.madctlArg.normal then c else Config.xform a c

/-- What is known to stand at a panel position: the cell whose panel position it is, read while the controller is not
`Unknown` and its memory-access-control register is known (spec/20_memory.md section 6, R51). -/
def Periph.panelPixel (q : Params) (p : Periph) (pos : Half × Half) : Option Half :=
  if p.pmode = .unknown then none
  else
    match p.madctl with
    | none => none
    | some a =>
      let c := if a = q.madctlArg.normal then pos else (Config.xform a).symm pos
      p.fm.cell c.1 c.2

end Sys2Proof.Machine
end

