-- ==== Sys2Proof/Machine/Ops.lean ====
section
/-! DEFINITION. The named operations over the block's registers and lines, the sequencing of an operation's lines, the
one error return, and the internal operations of the Bus Transport and the Framer, which every operation above them is
made of. -/

namespace Sys2Proof.Machine

/-! ### Sequencing (spec/00_scope.md R4, section 7.3; spec/60_exceptions.md R116) -/

/-- An operation: the state it leaves and the result it returns to its immediate caller. -/
abbrev Op := State → State × Result

/-- `raise K`: the operation ends with `Err(K)`, nothing saved and no mode changed (spec/60_exceptions.md R116). -/
def raise (k : ErrKind) : Op := fun s => (s, .err k)

/-- A line that cannot fail. -/
def line (f : State → State) : Op := fun s => (f s, .ok)

/-- First `f`, then `g`; if `f` raises, nothing below runs and the caller raises the same kind. -/
def andThen (f g : Op) : Op := fun s =>
  match f s with
  | (s', .ok) => g s'
  | (s', .err k) => (s', .err k)

/-- The lines of an operation, first to last (spec/10_state.md R18). -/
def runLines (fs : List Op) : Op :=
  match fs with
  | [] => line id
  | f :: rest => andThen f (runLines rest)

/-- The result handed to whoever issued the operation (spec/00_scope.md R4, spec/70_reset_and_hazards.md R134). -/
def respond (r : State × Result) : State :=
  { r.1 with results := r.1.results ++ [r.2] }

/-- An operation run to completion (spec/00_scope.md R3). -/
def perform (f : Op) (s : State) : Host.Outcome State Fault Refusal := .next (respond (f s))

/-! ### Registers, lines and events -/

/-- `emit e`: the event is appended to the trace and the controller sees it (spec/00_scope.md section 7.2). -/
def emit (e : Event) (s : State) : State :=
  { s with trace := s.trace ++ [e], periph := s.periph.onEvent s.params s.dc e }

/-- `Drive(rst, l)` (spec/00_scope.md section 7.3). -/
def driveRst (l : Level) (s : State) : State := emit (.rst l) { s with rst := l }

/-- `Drive(dc, m)` (spec/00_scope.md section 7.3). -/
def driveDc (m : DcMode) (s : State) : State := emit (.dc m) { s with dc := m }

/-- `cs <- a; emit CS(a)` (spec/40_bus_transport.md R70). -/
def driveCs (a : ChipSelect) (s : State) : State := emit (.cs a) { s with cs := a }

/-- `Delay(p)` (spec/00_scope.md R6). -/
def delay (p : TimingParam) (s : State) : State := emit (.wait p) s

/-- One `TX` per byte, in index order (spec/40_bus_transport.md R70). -/
def transmit (bs : List Byte) (s : State) : State := bs.foldl (fun t b => emit (.tx b) t) s

/-- `fsm <- f` (spec/42_controller.md R98). -/
def setFsm (f : Fsm) (s : State) : State := { s with fsm := f }

/-- `orient <- o` (spec/42_controller.md R92). -/
def setOrient (o : Orientation) (s : State) : State := { s with orient := o }

/-- `offset <- (dx, dy)` (spec/42_controller.md R93). -/
def writeOffset (dx dy : Half) (s : State) : State := { s with offset := { dx := dx, dy := dy } }

/-! ### The link (spec/40_bus_transport.md R72) -/

/-- The members of `BusOutcome(n)`. -/
def admittedOutcome (n : Nat) (o : BusOutcome) : Bool :=
  match o with
  | .ok => true
  | .fault k => k ≤ n

/-- The member of `BusOutcome(n)` an answer stands for: a fault after more bytes than the call has is a fault after all
of them (log 3). -/
def clampOutcome (n : Nat) (o : BusOutcome) : BusOutcome :=
  match o with
  | .ok => .ok
  | .fault k => .fault (min k n)

/-- The draw for the next BUSWRITE of `n` bytes: the next answer held, or the free value of this call (log 3). -/
def outcome (n : Nat) (s : State) : BusOutcome :=
  clampOutcome n (s.link.headD (Config.linkOutcome s.draws))

/-- The draw is used up. -/
def consumeDraw (s : State) : State := { s with link := s.link.tail, draws := s.draws + 1 }

/-- How many bytes go out. -/
def sentOf (n : Nat) (o : BusOutcome) : Nat :=
  match o with
  | .ok => n
  | .fault k => k

/-- A transfer that ends in a fault: the controller's state is indeterminate, its frame memory any value
(spec/20_memory.md R52 a, spec/93_implementation_defined.md U2), and the block raises BusFault
(spec/60_exceptions.md R111). -/
def transferEnd (o : BusOutcome) : Op := fun s =>
  match o with
  | .ok => (s, .ok)
  | .fault _ => ({ s with periph := s.periph.lose }, .err .busFault)

/-! ### Bus Transport and Framer (spec/40_bus_transport.md, spec/41_framer.md) -/

/-- BUSWRITE(bs) (spec/40_bus_transport.md R70, R71, R74). -/
def busWrite (bs : List Byte) : Op := fun s =>
  let o := outcome bs.length s
  transferEnd o
    (driveCs .released (transmit (bs.take (sentOf bs.length o)) (consumeDraw (driveCs .asserted s))))

/-- HWRESET (spec/41_framer.md R80). -/
def hwReset : Op :=
  line fun s => delay .rstSettle (driveRst .high (delay .rstLow (driveRst .low s)))

/-- SENDCMD(op, args) (spec/41_framer.md R81). -/
def sendCmd (op : Byte) (args : List Byte) : Op :=
  andThen (fun s => busWrite [op] (driveDc .C s))
    (if args = [] then line id else fun s => busWrite args (driveDc .D s))

/-- SENDPIX(bytes) (spec/41_framer.md R82). -/
def sendPix (bytes : List Byte) : Op := fun s => busWrite bytes (driveDc .D s)

end Sys2Proof.Machine
end

