-- ==== Sys2Proof/Machine/Operands.lean ====
section
/-! DEFINITION. Operand assembly and the checks on operands, on exact integers (spec/00_scope.md R7): the byte split,
relocation and bounds (spec/20_memory.md R39), the payload of CLEAR, the shape of a bitmap and its destination. -/

namespace Sys2Proof.Machine

/-- `be16(v) = [v div 256, v mod 256]` (spec/30_encoding.md R61). -/
def be16 (v : Nat) : List Byte := [BitVec.ofNat 8 (v / 256), BitVec.ofNat 8 (v % 256)]

/-- An addressing window, corners inclusive, on exact integers (spec/42_controller.md R94). -/
structure Window where
  x0 : Int
  y0 : Int
  x1 : Int
  y1 : Int
  deriving DecidableEq, Repr

/-- The physical window: the offset is added to every corner (spec/20_memory.md R39). -/
def relocate (o : Offset) (w : Window) : Window :=
  { x0 := w.x0 + o.dx.toInt, y0 := w.y0 + o.dy.toInt, x1 := w.x1 + o.dx.toInt, y1 := w.y1 + o.dy.toInt }

/-- The bounds check on all four corners (spec/42_controller.md R94; spec/90_conflicts.md C8). -/
def insidePanel (c : PanelCfg) (w : Window) : Bool :=
  (0 ≤ w.x0 ∧ w.x0 < c.width) ∧ (0 ≤ w.x1 ∧ w.x1 < c.width) ∧
  (0 ≤ w.y0 ∧ w.y0 < c.height) ∧ (0 ≤ w.y1 ∧ w.y1 < c.height)

/-- The column-address-set arguments (spec/30_encoding.md R60). -/
def columnArgs (w : Window) : List Byte := be16 w.x0.toNat ++ be16 w.x1.toNat

/-- The row-address-set arguments (spec/30_encoding.md R60). -/
def rowArgs (w : Window) : List Byte := be16 w.y0.toNat ++ be16 w.y1.toNat

/-- The window of SET_WINDOW's operands, unsigned (spec/30_encoding.md R66). -/
def windowOf (x0 y0 x1 y1 : Half) : Window :=
  { x0 := x0.toNat, y0 := y0.toNat, x1 := x1.toNat, y1 := y1.toNat }

/-- The full panel `(0, 0, W-1, H-1)` (spec/42_controller.md R96). -/
def fullPanel (c : PanelCfg) : Window :=
  { x0 := 0, y0 := 0, x1 := (c.width : Int) - 1, y1 := (c.height : Int) - 1 }

/-- `rep(n, be16(color))` (spec/30_encoding.md R64). -/
def colourBytes (n : Nat) (color : Half) : List Byte := (List.replicate n (be16 color.toNat)).flatten

/-- `BitmapShape(bmp)`: the pixel count and the height, or MalformedInput (spec/43_blit.md R101). -/
def bitmapShape (bytes : List Byte) (roww : Half) : Option (Nat × Nat) :=
  if roww = 0 then none
  else if bytes.length % 2 ≠ 0 then none
  else if bytes.length / 2 = 0 then none
  else if bytes.length / 2 % roww.toNat ≠ 0 then none
  else some (bytes.length / 2, bytes.length / 2 / roww.toNat)

/-- The destination rectangle, logical (spec/43_blit.md R102). -/
def destination (x y roww : Half) (h : Nat) : Window :=
  { x0 := x.toNat, y0 := y.toNat, x1 := (x.toNat : Int) + roww.toNat - 1, y1 := (y.toNat : Int) + h - 1 }

end Sys2Proof.Machine
end

