-- ==== Sys2Proof/Machine/Flags.lean ====
section
/-! DEFINITION. The block has no flag register (spec/10_state.md R19): its only status is the result of an operation.
Here are the status codes of the response and the state gating that gives SequenceError. -/

namespace Sys2Proof.Machine

/-- The response's status code (spec/30_encoding.md R65); 5 to 7 are never produced. -/
def Result.status (r : Result) : BitVec 3 :=
  match r with
  | .ok => 0
  | .err .busFault => 1
  | .err .sequenceError => 2
  | .err .boundsError => 3
  | .err .malformedInput => 4

/-- `if fsm != Ready: raise SequenceError`, before anything else the operation does (spec/42_controller.md R97,
spec/60_exceptions.md R115). -/
def whenReady (f : Op) : Op := fun s =>
  if s.fsm = .ready then f s else raise .sequenceError s

end Sys2Proof.Machine
end

