-- ==== Sys2Proof/Machine/Controller.lean ====
section
/-! DEFINITION. The Controller State Machine's operations (spec/42_controller.md), each as the host calls it, and the
window-address generator that CLEAR and DRAW share with SET_WINDOW. -/

namespace Sys2Proof.Machine

/-- RESET's lines (spec/42_controller.md R90). -/
def resetOp : Op := runLines [hwReset, line (setFsm .awaitingInit)]

/-- RESET (spec/42_controller.md R90). -/
def execReset (s : State) : Host.Outcome State Fault Refusal := perform resetOp s

/-- INITIALIZE's steps 2 to 8 (spec/42_controller.md R91), under the parameters and the configuration record. -/
def initCommands (q : Params) (c : PanelCfg) : List Op :=
  [ sendCmd q.opc.swreset [],
    line (delay .swreset),
    sendCmd q.opc.slpout [],
    line (delay .slpout),
    sendCmd q.opc.pixfmt [pixfmtArgOf q c.bgr],
    if c.invert then sendCmd q.opc.invon [] else line id,
    sendCmd q.opc.dispon [] ]

/-- INITIALIZE's lines (spec/42_controller.md R91): the hardware reset, AwaitingInit, the commands, and Ready only after
the full sequence. -/
def initOp : Op := fun s =>
  runLines ([hwReset, line (setFsm .awaitingInit)] ++ initCommands s.params s.cfg ++ [line (setFsm .ready)]) s

/-- INITIALIZE (spec/42_controller.md R91). -/
def execInitialise (s : State) : Host.Outcome State Fault Refusal := perform initOp s

/-- SET_ORIENTATION's lines (spec/42_controller.md R92): `orient` only if the command went out whole. -/
def setOrientationOp (o : Orientation) : Op := whenReady fun s =>
  runLines [sendCmd s.params.opc.madctl [madctlArgOf s.params o], line (setOrient o)] s

/-- SET_ORIENTATION(o) (spec/42_controller.md R92). -/
def execSetOrientation (o : Orientation) (s : State) : Host.Outcome State Fault Refusal :=
  perform (setOrientationOp o) s

/-- SET_OFFSET(dx, dy) (spec/42_controller.md R93). -/
def execSetOffset (dx dy : Half) (s : State) : Host.Outcome State Fault Refusal :=
  perform (line (writeOffset dx dy)) s

/-- The three commands that program a physical window and prime the controller (spec/42_controller.md R94). -/
def programWindow (w : Window) : Op := fun s =>
  runLines [sendCmd s.params.opc.caset (columnArgs w), sendCmd s.params.opc.raset (rowArgs w),
    sendCmd s.params.opc.ramwr []] s

/-- SET_WINDOW on a logical window (spec/42_controller.md R94). -/
def setWindowOp (w : Window) : Op := whenReady fun s =>
  if insidePanel s.cfg (relocate s.offset w) then programWindow (relocate s.offset w) s else raise .boundsError s

/-- SET_WINDOW(x0, y0, x1, y1) (spec/42_controller.md R94). -/
def execSetWindow (x0 y0 x1 y1 : Half) (s : State) : Host.Outcome State Fault Refusal :=
  perform (setWindowOp (windowOf x0 y0 x1 y1)) s

/-- WRITE_PIXELS(bytes) (spec/42_controller.md R95). -/
def execWritePixels (bytes : List Byte) (s : State) : Host.Outcome State Fault Refusal :=
  perform (whenReady (sendPix bytes)) s

/-- CLEAR's lines (spec/42_controller.md R96). -/
def clearOp (color : Half) : Op := whenReady fun s =>
  runLines [setWindowOp (fullPanel s.cfg), sendPix (colourBytes (s.cfg.width * s.cfg.height) color)] s

/-- CLEAR(color) (spec/42_controller.md R96). -/
def execClear (color : Half) (s : State) : Host.Outcome State Fault Refusal := perform (clearOp color) s

end Sys2Proof.Machine
end

