-- ==== Sys2Proof/Machine/Blit.lean ====
section
/-! DEFINITION. The Blit Renderer's operation (spec/43_blit.md). -/

namespace Sys2Proof.Machine

/-- DRAW's lines (spec/43_blit.md R100): the state check, the bitmap's shape, the window, then the bytes as they are. -/
def drawOp (x y roww : Half) (bytes : List Byte) : Op := whenReady fun s =>
  match bitmapShape bytes roww with
  | none => raise .malformedInput s
  | some (_, h) => runLines [setWindowOp (destination x y roww h), sendPix bytes] s

/-- DRAW((bytes, roww), (x, y)) (spec/43_blit.md R100). -/
def execDraw (x y roww : Half) (bytes : List Byte) (s : State) : Host.Outcome State Fault Refusal :=
  perform (drawOp x y roww bytes) s

end Sys2Proof.Machine
end

