-- ==== Sys2Proof/Machine/BusTransport.lean ====
section
/-! DEFINITION. The Bus Transport's operation as an instruction (spec/40_bus_transport.md). -/

namespace Sys2Proof.Machine

/-- BUSWRITE(bs) (spec/40_bus_transport.md R70). -/
def execBusWrite (bs : List Byte) (s : State) : Host.Outcome State Fault Refusal := perform (busWrite bs) s

end Sys2Proof.Machine
end

