-- ==== Sys2Proof/Machine/Framer.lean ====
section
/-! DEFINITION. The Framer's operations as instructions (spec/41_framer.md). -/

namespace Sys2Proof.Machine

/-- HWRESET (spec/41_framer.md R80). -/
def execHwReset (s : State) : Host.Outcome State Fault Refusal := perform hwReset s

/-- SENDCMD(op, args) (spec/41_framer.md R81). -/
def execSendCmd (op : Byte) (args : List Byte) (s : State) : Host.Outcome State Fault Refusal :=
  perform (sendCmd op args) s

/-- SENDPIX(bytes) (spec/41_framer.md R82). -/
def execSendPix (bytes : List Byte) (s : State) : Host.Outcome State Fault Refusal := perform (sendPix bytes) s

end Sys2Proof.Machine
end

