-- ==== Sys2Proof/Machine/Wire.lean ====
section
/-! DEFINITION. The controller's commands and the pixel stream as instructions: the frame is put on the wire by the
Framer, the only driver of the lines (spec/00_scope.md R1, spec/30_encoding.md R55), and the controller acts on it as
spec/20_memory.md R45 to R50 say. And the reserved host range. -/

namespace Sys2Proof.Machine

/-- SWRESET (spec/20_memory.md R46). -/
def execSwreset (s : State) : Host.Outcome State Fault Refusal := perform (sendCmd s.params.opc.swreset []) s

/-- SLPOUT (spec/20_memory.md R46). -/
def execSlpout (s : State) : Host.Outcome State Fault Refusal := perform (sendCmd s.params.opc.slpout []) s

/-- INVON (spec/20_memory.md R46). -/
def execInvon (s : State) : Host.Outcome State Fault Refusal := perform (sendCmd s.params.opc.invon []) s

/-- DISPON (spec/20_memory.md R46). -/
def execDispon (s : State) : Host.Outcome State Fault Refusal := perform (sendCmd s.params.opc.dispon []) s

/-- CASET(S, E) (spec/30_encoding.md R56 WC4, spec/20_memory.md R48). -/
def execCaset (a b : Half) (s : State) : Host.Outcome State Fault Refusal :=
  perform (sendCmd s.params.opc.caset (be16 a.toNat ++ be16 b.toNat)) s

/-- RASET(S, E) (spec/30_encoding.md R56 WC4, spec/20_memory.md R48). -/
def execRaset (a b : Half) (s : State) : Host.Outcome State Fault Refusal :=
  perform (sendCmd s.params.opc.raset (be16 a.toNat ++ be16 b.toNat)) s

/-- RAMWR (spec/20_memory.md R49). -/
def execRamwr (s : State) : Host.Outcome State Fault Refusal := perform (sendCmd s.params.opc.ramwr []) s

/-- MADCTL(arg) (spec/20_memory.md R47). -/
def execMadctl (arg : Byte) (s : State) : Host.Outcome State Fault Refusal :=
  perform (sendCmd s.params.opc.madctl [arg]) s

/-- PIXFMT(arg) (spec/20_memory.md R46). -/
def execPixfmt (arg : Byte) (s : State) : Host.Outcome State Fault Refusal :=
  perform (sendCmd s.params.opc.pixfmt [arg]) s

/-- PIXELS: data-mode bytes (spec/30_encoding.md R56 PX, spec/20_memory.md R50). -/
def execPixels (bytes : List Byte) (s : State) : Host.Outcome State Fault Refusal := perform (sendPix bytes) s

/-- RESERVED_HOST "spells no operation" (spec/30_encoding.md R68): no step, no event, no response. -/
def execReservedHost (_r : BitVec 3) (_s : State) : Host.Outcome State Fault Refusal :=
  .refused (.spellsNoOperation .reservedSelector)

end Sys2Proof.Machine
end

