-- ==== Sys2Proof/Machine/Dispatch.lean ====
section
/-! DEFINITION. One arm per constructor of Instr, each one direct call of its meaning. -/

namespace Sys2Proof.Machine

def exec (i : Instr) (s : State) : Host.Outcome State Fault Refusal :=
  match i with
  | .reset => Sys2Proof.Machine.execReset s
  | .initialise => Sys2Proof.Machine.execInitialise s
  | .setOrientation o => Sys2Proof.Machine.execSetOrientation o s
  | .setOffset dx dy => Sys2Proof.Machine.execSetOffset dx dy s
  | .setWindow x0 y0 x1 y1 => Sys2Proof.Machine.execSetWindow x0 y0 x1 y1 s
  | .writePixels bytes => Sys2Proof.Machine.execWritePixels bytes s
  | .clear color => Sys2Proof.Machine.execClear color s
  | .draw x y roww bytes => Sys2Proof.Machine.execDraw x y roww bytes s
  | .reservedHost r => Sys2Proof.Machine.execReservedHost r s
  | .busWrite bs => Sys2Proof.Machine.execBusWrite bs s
  | .hwReset => Sys2Proof.Machine.execHwReset s
  | .sendCmd op args => Sys2Proof.Machine.execSendCmd op args s
  | .sendPix bytes => Sys2Proof.Machine.execSendPix bytes s
  | .swreset => Sys2Proof.Machine.execSwreset s
  | .slpout => Sys2Proof.Machine.execSlpout s
  | .invon => Sys2Proof.Machine.execInvon s
  | .dispon => Sys2Proof.Machine.execDispon s
  | .caset a b => Sys2Proof.Machine.execCaset a b s
  | .raset a b => Sys2Proof.Machine.execRaset a b s
  | .ramwr => Sys2Proof.Machine.execRamwr s
  | .madctl arg => Sys2Proof.Machine.execMadctl arg s
  | .pixfmt arg => Sys2Proof.Machine.execPixfmt arg s
  | .pixels bytes => Sys2Proof.Machine.execPixels bytes s

end Sys2Proof.Machine
end

