-- ==== Sys2Proof/Machine/Fetch.lean ====
section
/-! DEFINITION. What the machine runs next: the host's requests one after another (spec/70_reset_and_hazards.md R133;
log 7). -/

namespace Sys2Proof.Machine

/-- The next input with the decoder's verdict on it, and the state once it has been taken; none when the host asks for
nothing. -/
def fetch (s : State) : Option (Decoded × State) :=
  match s.inputs with
  | [] => none
  | x :: rest => some (decode s.params x, { s with inputs := rest })

/-- `s` with an input placed so that it is the next one taken. -/
def present (x : Input) (s : State) : State := { s with inputs := x :: s.inputs }

end Sys2Proof.Machine
end

