-- ==== Sys2Proof/Machine/Step.lean ====
section
/-! DEFINITION. One step of the machine: one operation of the host run to completion (spec/00_scope.md R3), or nothing
where the host asks for nothing (spec/70_reset_and_hazards.md R134: "idling produces no event"). -/

namespace Sys2Proof.Machine

/-- One step. An input the decoder rejects is refused by name (spec/30_encoding.md R68). -/
def step (s : State) : Host.Outcome State Fault Refusal :=
  match fetch s with
  | none => .next s
  | some (.instr i, t) => exec i t
  | some (.rejected r, _) => .refused (.spellsNoOperation r)

/-- `s` with the input a word of spec/opcode_table.json stands for presented as the next one (log 7). -/
def State.withFetchWord (s : State) (_nbits w : Nat) : State := present (inputOfWord s.params w) s

end Sys2Proof.Machine
end

