-- ==== Sys2Proof/Safety.lean ====
section
/-! DEFINITION. The terms in which claims are made: the traces the rules prescribe, the framed byte stream, the shape of
a well-framed trace, the premise on the link, and the conditions on the controller. -/

namespace Sys2Proof.Machine

/-! ### Prescribed traces (spec/00_scope.md section 7.2) -/

/-- `CS(1) TX(b0) ... CS(0)` (spec/40_bus_transport.md R70). -/
def transactionEvents (bs : List Byte) : List Event :=
  .cs .asserted :: bs.map .tx ++ [.cs .released]

/-- `C[op]`, and `D[args]` if there are arguments (spec/30_encoding.md R55). -/
def commandEvents (op : Byte) (args : List Byte) : List Event :=
  .dc .C :: transactionEvents [op] ++ if args = [] then [] else .dc .D :: transactionEvents args

/-- `D[bytes]` (spec/41_framer.md R82). -/
def pixelEvents (bytes : List Byte) : List Event := .dc .D :: transactionEvents bytes

/-- `RST(0) WAIT(T_RST_LOW) RST(1) WAIT(T_RST_SETTLE)` (spec/41_framer.md R80). -/
def resetPulse : List Event := [.rst .low, .wait .rstLow, .rst .high, .wait .rstSettle]

/-- The trace of a successful INITIALIZE (spec/42_controller.md R91). -/
def initEvents (q : Params) (c : PanelCfg) : List Event :=
  resetPulse ++ commandEvents q.opc.swreset [] ++ [.wait .swreset] ++ commandEvents q.opc.slpout [] ++ [.wait .slpout] ++
    commandEvents q.opc.pixfmt [pixfmtArgOf q c.bgr] ++ (if c.invert then commandEvents q.opc.invon [] else []) ++
    commandEvents q.opc.dispon []

/-- The trace of a successful SET_WINDOW whose physical window is `(X0, Y0, X1, Y1)` (spec/42_controller.md R94). -/
def windowEvents (q : Params) (X0 Y0 X1 Y1 : Nat) : List Event :=
  commandEvents q.opc.caset (be16 X0 ++ be16 X1) ++ commandEvents q.opc.raset (be16 Y0 ++ be16 Y1) ++
    commandEvents q.opc.ramwr []

/-! ### The framed byte stream (spec/00_scope.md R5 b) -/

/-- An item of the framed byte stream: RST and WAIT are kept in their places, CS and DC are dropped. -/
inductive FbItem where
  | byte (m : DcMode) (b : Byte)
  | rst (l : Level)
  | wait (p : TimingParam)
  deriving DecidableEq, Repr

/-- The framed byte stream of a trace, `m` the mode on `dc` at its start. -/
def framed (m : DcMode) (es : List Event) : List FbItem :=
  match es with
  | [] => []
  | .dc m' :: rest => framed m' rest
  | .cs _ :: rest => framed m rest
  | .tx b :: rest => .byte m b :: framed m rest
  | .rst l :: rest => .rst l :: framed m rest
  | .wait p :: rest => .wait p :: framed m rest

/-! ### The shape of a trace (spec/41_framer.md R85, spec/40_bus_transport.md R71) -/

/-- Where a reader of a trace stands: outside a chip-select window, just after a drive of `dc`, or inside a window
opened under a mode (`sent`: a byte has gone out in it). -/
inductive LinePhase where
  | outside
  | driven (m : DcMode)
  | selected (m : DcMode) (sent : Bool)
  deriving DecidableEq, Repr

/-- One event read: each drive of `dc` is followed at once by CS(1), at most one byte goes out under C, any number under
D, and RST and WAIT stand outside the windows; `none` where the shape is broken. -/
def readEvent (p : LinePhase) (e : Event) : Option LinePhase :=
  match p, e with
  | .outside, .rst _ => some .outside
  | .outside, .wait _ => some .outside
  | .outside, .dc m => some (.driven m)
  | .driven m, .cs .asserted => some (.selected m false)
  | .selected .C false, .tx _ => some (.selected .C true)
  | .selected .D _, .tx _ => some (.selected .D true)
  | .selected _ _, .cs .released => some .outside
  | _, _ => none

/-- A whole trace read from a phase. -/
def readTrace (p : LinePhase) (es : List Event) : Option LinePhase :=
  match es with
  | [] => some p
  | e :: rest => (readEvent p e).bind fun p' => readTrace p' rest

/-- A trace of the shape of spec/41_framer.md R85, with every chip-select window closed. -/
abbrev WellFramed (es : List Event) : Prop := readTrace .outside es = some .outside

/-! ### Premises on the state -/

/-- The link answers `ok` to the next `n` transfers: the fault-free oracle as far as an operation asks it
(spec/40_bus_transport.md R72). -/
abbrev LinkOk (n : Nat) (s : State) : Prop := s.link.take n = List.replicate n BusOutcome.ok

/-- `s` after the events `es` of `n` fault-free transfers, `m` the mode then on `dc`: the trace is longer, the controller
has consumed it, `n` answers of the link are used up, and nothing else has changed. -/
def State.sent (s : State) (es : List Event) (m : DcMode) (n : Nat) : State :=
  { s with cs := .released, dc := m, trace := s.trace ++ es, periph := s.periph.replay s.params s.dc es,
           link := s.link.drop n, draws := s.draws + n }

/-- The physical window lies in the panel (spec/42_controller.md R94). -/
abbrev InPanel (c : PanelCfg) (X0 Y0 X1 Y1 : Int) : Prop :=
  (0 ≤ X0 ∧ X0 < c.width) ∧ (0 ≤ X1 ∧ X1 < c.width) ∧ (0 ≤ Y0 ∧ Y0 < c.height) ∧ (0 ≤ Y1 ∧ Y1 < c.height)

/-- The bitmap has a whole rectangle (spec/43_blit.md R101). -/
abbrev WellShaped (bytes : List Byte) (roww : Half) : Prop :=
  roww ≠ 0 ∧ bytes.length % 2 = 0 ∧ bytes.length / 2 ≠ 0 ∧ bytes.length / 2 % roww.toNat = 0

/-! ### The controller -/

/-- Between commands: awake, no command cut short, no half pixel pending (spec/20_memory.md R45, R52). -/
abbrev Attentive (s : State) : Prop :=
  s.periph.pmode = .awake ∧ s.periph.midCommand s.params.opc = false ∧ s.periph.half = none

/-- The document's lifecycle of the controller (spec/20_memory.md R43): in reset. -/
abbrev Periph.inReset (p : Periph) : Prop := p.pmode = .resetLow ∨ p.pmode = .resetWait

/-- Asleep (spec/20_memory.md R43). -/
abbrev Periph.asleep (p : Periph) : Prop := p.pmode = .sleep ∨ p.pmode = .swResetWait ∨ p.pmode = .wakeWait

/-- Initialized (spec/20_memory.md R43). -/
abbrev Periph.initialized (p : Periph) : Prop := p.pmode = .awake ∧ p.pixfmt.isSome ∧ p.on = true

/-- Addressable (spec/20_memory.md R43). -/
abbrev Periph.addressable (p : Periph) : Prop := p.pmode = .awake ∧ p.wp.isSome

/-! ### Invariants of the machine -/

/-- No chip-select window is open (spec/10_state.md R22). -/
abbrev Idle (s : State) : Prop := s.cs = .released

/-- Once the block has left Uninitialized, a reset pulse has been driven and `rst` stays high (spec/10_state.md R13). -/
abbrev ResetReleased (s : State) : Prop := s.fsm ≠ .uninitialized → s.rst = .high

/-- While the controller is `Unknown` no content of frame memory is known (spec/20_memory.md section 6, R52). -/
abbrev Forgotten (s : State) : Prop := s.periph.pmode = .unknown → s.periph.fm = []

/-- Every byte sent under C is one of the nine command bytes (spec/30_encoding.md R59). -/
abbrev OnlyCommands (q : Params) (m : DcMode) (es : List Event) : Prop :=
  ∀ b, FbItem.byte .C b ∈ framed m es → b ∈ opcodeList q.opc

/-- Every byte sent as the argument of memory-access-control is one of the four of R62 (spec/30_encoding.md R68). -/
abbrev OnlyOrientationBytes (q : Params) (m : DcMode) (es : List Event) : Prop :=
  ∀ before a after, framed m es = before ++ [.byte .C q.opc.madctl, .byte .D a] ++ after → a ∈ madctlBytes q

end Sys2Proof.Machine
end

