-- ==== Sys2Proof/Certificates/Slice0/Obligations.lean ====
section
/-! DEFINITION. The statements for the provers. Each says which rule of spec/ it formalises; where a value is the model's
choice it names the log entry. "Next" is `Host.Outcome.next`; a result is the last entry of `results`. -/

open Sys2Proof Sys2Proof.Machine

/-! ### Encoding -/

/-- Decoding what the encoder spells gives the operation back, for every operand and every parameter set the spec admits
(spec/30_encoding.md R55 to R58, R65 to R67). -/
def Obligations.DecodeInvertsEncode : Prop :=
  ∀ (q : Params) (i : Instr) (x : Input), q.wf → encode q i = some x → decode q x = .instr i

/-- Only well-formed operations that are not internal come out of the decoder: no reserved selector (spec/30_encoding.md
R68, host side), and no MADCTL with a byte beside the four of spec/30_encoding.md R62. R68's refusal is of requests alone:
that a wire frame is an input is the model's choice (log 7), and that the decoder refuses a frame with such a byte is
the model's, deduced from R68's wire side (log 13). A request only ever gives one of the eight host operations: the host
has no path to the internal ones (spec/30_encoding.md R66, spec/00_scope.md R1). -/
def Obligations.DecoderYieldsOnlySpelledOperations : Prop :=
  (∀ (q : Params) (x : Input) (i : Instr), decode q x = .instr i → i.wf q = true ∧ i.internal = false) ∧
  ∀ (q : Params) (r : Request) (i : Instr), decode q (.request r) = .instr i → i.hostOperation = true

/-- A few words written out by hand decode to the operation they stand for: requests as spec/30_encoding.md R66, R67 lay
them out (the SET_OFFSET of spec/95_test_vectors.md K5 and the SET_ORIENTATION of P3 among them), and frames as
spec/30_encoding.md R56 lays them out, with the default command bytes of R58 and memory-access-control byte of R62 (PRESUMED,
log 4). -/
def Obligations.SpecWordsDecode : Prop :=
  decode defaultParams (.request { op := 0x3, a := 0xFFFD, b := 0x0005 }) = .instr (.setOffset (-3) 5) ∧
  decode defaultParams (.request { op := 0x2, a := 3 }) = .instr (.setOrientation .inverted) ∧
  decode defaultParams (.request { op := 0x4, a := 1, b := 2, c := 3, d := 4 }) = .instr (.setWindow 1 2 3 4) ∧
  decode defaultParams (.frame [(.C, 0x2A), (.D, 0x01), (.D, 0x02), (.D, 0x03), (.D, 0x04)]) =
    .instr (.caset 0x0102 0x0304) ∧
  decode defaultParams (.frame [(.C, 0x36), (.D, 0xA0)]) = .instr (.madctl 0xA0) ∧
  decode defaultParams (.frame [(.C, 0x29)]) = .instr .dispon

/-- A selector 0x8 to 0xF, and a SET_ORIENTATION with `a >= 4`, spell no operation: no step, so no event, no state change
and no response (spec/30_encoding.md R68, host side). -/
def Obligations.ReservedRequestsTakeNoStep : Prop :=
  ∀ (s : State) (r : Request) (rest : List Input), s.inputs = .request r :: rest →
    (8 ≤ r.op.toNat → step s = .refused (.spellsNoOperation .reservedSelector)) ∧
    (r.op = 2 → 4 ≤ r.a.toNat → step s = .refused (.spellsNoOperation .reservedOrientation))

/-- The table's reserved host range has no meaning: it stops by name from every state (spec/30_encoding.md R68). -/
def Obligations.ReservedHostStops : Prop :=
  ∀ (r : BitVec 3) (s : State), exec (.reservedHost r) s = .refused (.spellsNoOperation .reservedSelector)

/-! ### The step -/

/-- Where the next input decodes to an operation, the step is that operation run to completion on the state with the input
taken, and nothing around it (spec/00_scope.md R3, spec/70_reset_and_hazards.md R133). -/
def Obligations.StepRunsDecodedOperation : Prop :=
  ∀ (s : State) (x : Input) (rest : List Input) (i : Instr),
    s.inputs = x :: rest → decode s.params x = .instr i → i.wf s.params = true → step s = exec i { s with inputs := rest }

/-- Idling produces no event and changes nothing (spec/70_reset_and_hazards.md R134). -/
def Obligations.IdleStepChangesNothing : Prop :=
  ∀ s : State, s.inputs = [] → step s = .next s

/-! ### Bus Transport -/

/-- BUSWRITE, whatever the link draws (an answer held in State.link or the free one beyond it, log 3): chip-select window,
the bytes the draw admits in index order, release on both exits, BusFault exactly on a fault; nothing else of the block is
written; after a fault the controller is Unknown and frame memory forgotten, its other registers not stated; the host has no
selector for it (spec/40_bus_transport.md R70, R74; spec/20_memory.md R52; spec/93_implementation_defined.md U2). -/
def Obligations.BusWriteFollowsItsDraw : Prop :=
  (∀ (q : Params) (bs : List Byte), encode q (.busWrite bs) = none) ∧
  ∀ (s : State) (bs : List Byte),
    match outcome bs.length s with
    | .ok => exec (.busWrite bs) s =
        .next (respond (s.sent ([.cs .asserted] ++ bs.map .tx ++ [.cs .released]) s.dc 1, .ok))
    | .fault k => k ≤ bs.length ∧ ∃ p : Periph, p.pmode = .unknown ∧ p.fm = [] ∧ exec (.busWrite bs) s =
        .next (respond ({ s.sent ([.cs .asserted] ++ (bs.take k).map .tx ++ [.cs .released]) s.dc 1 with periph := p },
          .err .busFault))

/-- Every draw is a member of `BusOutcome(n)`, and every member can be drawn, whatever the state
(spec/40_bus_transport.md R72). Where the draw comes from is the model's choice (log 3): the next answer held, and with none
held the free value of this call. -/
def Obligations.DrawIsAnyMemberOfBusOutcome : Prop :=
  (∀ (n : Nat) (s : State), admittedOutcome n (outcome n s) = true) ∧
  (∀ (n : Nat) (s : State) (o : BusOutcome), admittedOutcome n o = true → ∃ l, outcome n { s with link := l } = o) ∧
  (∀ (n : Nat) (s : State) (o : BusOutcome) (l : List BusOutcome), s.link = o :: l → admittedOutcome n o = true →
    outcome n s = o) ∧
  ∀ (n : Nat) (s : State), s.link = [] → outcome n s = clampOutcome n (Config.linkOutcome s.draws)

/-! ### Framer -/

/-- HWRESET, from any state and any prior level of `rst`: the pulse and its two delays, `rst` high, no bus traffic, no
other register written, no error; the host has no selector for it (spec/41_framer.md R80). -/
def Obligations.HardwareResetPulse : Prop :=
  (∀ q : Params, encode q .hwReset = none) ∧
  ∀ s : State, exec .hwReset s =
    .next (respond ({ s with rst := .high,
                             trace := s.trace ++ [.rst .low, .wait .rstLow, .rst .high, .wait .rstSettle],
                             periph := s.periph.replay s.params s.dc
                               [.rst .low, .wait .rstLow, .rst .high, .wait .rstSettle] }, .ok))

/-- SENDCMD on a fault-free link: one drive to C and one transaction for the command byte, then, if there are arguments,
one drive to D and one transaction for all of them (spec/41_framer.md R81, spec/30_encoding.md R55). -/
def Obligations.SendCommandFrames : Prop :=
  ∀ (s : State) (op : Byte) (args : List Byte),
    (args = [] → LinkOk 1 s → exec (.sendCmd op args) s =
      .next (respond (s.sent [.dc .C, .cs .asserted, .tx op, .cs .released] .C 1, .ok))) ∧
    (args ≠ [] → LinkOk 2 s → exec (.sendCmd op args) s =
      .next (respond (s.sent ([.dc .C, .cs .asserted, .tx op, .cs .released, .dc .D, .cs .asserted] ++ args.map .tx ++
        [.cs .released]) .D 2, .ok)))

/-- SENDCMD on a fault: a fault of the command phase stops before the data phase, a fault of the data phase leaves the
bytes sent; the kind is BusFault and `dc` holds the mode last driven (spec/41_framer.md R81, R83); the controller is Unknown
and frame memory forgotten, its other registers not stated (spec/20_memory.md R52; spec/93_implementation_defined.md U2). -/
def Obligations.SendCommandFaultStopsTheFrame : Prop :=
  ∀ (s : State) (op : Byte) (args : List Byte) (k : Nat) (l : List BusOutcome),
    (s.link = .fault k :: l → k ≤ 1 →
      ∃ p : Periph, p.pmode = .unknown ∧ p.fm = [] ∧ exec (.sendCmd op args) s =
        .next (respond ({ s.sent ([.dc .C, .cs .asserted] ++ ([op].take k).map .tx ++ [.cs .released]) .C 1 with
          periph := p }, .err .busFault))) ∧
    (s.link = .ok :: .fault k :: l → args ≠ [] → k ≤ args.length →
      ∃ p : Periph, p.pmode = .unknown ∧ p.fm = [] ∧ exec (.sendCmd op args) s =
        .next (respond ({ s.sent ([.dc .C, .cs .asserted, .tx op, .cs .released, .dc .D, .cs .asserted] ++
          (args.take k).map .tx ++ [.cs .released]) .D 2 with periph := p }, .err .busFault)))

/-- SENDPIX: `dc` driven once to D and one transaction for the whole payload, any byte count; BusFault propagated
unchanged, and with it the controller Unknown and frame memory forgotten, its other registers not stated; the host has no
selector for it (spec/41_framer.md R82; spec/20_memory.md R52; spec/93_implementation_defined.md U2). -/
def Obligations.SendPixelsStreams : Prop :=
  (∀ (q : Params) (bytes : List Byte), encode q (.sendPix bytes) = none) ∧
  ∀ (s : State) (bytes : List Byte),
    (LinkOk 1 s → exec (.sendPix bytes) s =
      .next (respond (s.sent ([.dc .D, .cs .asserted] ++ bytes.map .tx ++ [.cs .released]) .D 1, .ok))) ∧
    ∀ (k : Nat) (l : List BusOutcome), s.link = .fault k :: l → k ≤ bytes.length →
      ∃ p : Periph, p.pmode = .unknown ∧ p.fm = [] ∧ exec (.sendPix bytes) s =
        .next (respond ({ s.sent ([.dc .D, .cs .asserted] ++ (bytes.take k).map .tx ++ [.cs .released]) .D 1 with
          periph := p }, .err .busFault))

/-! ### Controller State Machine -/

/-- RESET, selector 0, from any state: the hardware reset, then AwaitingInit; no error (spec/42_controller.md R90). -/
def Obligations.ResetLeavesAwaitingInit : Prop :=
  (∀ q : Params, encode q .reset = some (.request { op := 0x0 })) ∧
  ∀ s : State, exec .reset s =
    .next (respond ({ s with rst := .high, fsm := .awaitingInit,
                             trace := s.trace ++ [.rst .low, .wait .rstLow, .rst .high, .wait .rstSettle],
                             periph := s.periph.replay s.params s.dc
                               [.rst .low, .wait .rstLow, .rst .high, .wait .rstSettle] }, .ok))

/-- INITIALIZE on a fault-free link, from any state: exactly the fixed sequence, the invert-on command only if the
configuration asks for it, and Ready at its end; `orient`, `offset` untouched (spec/42_controller.md R91). -/
def Obligations.InitialiseRunsFixedSequence : Prop :=
  ∀ s : State, LinkOk (if s.cfg.invert then 6 else 5) s →
    exec .initialise s =
      .next (respond ({ s.sent
        ([.rst .low, .wait .rstLow, .rst .high, .wait .rstSettle] ++
          [.dc .C, .cs .asserted, .tx s.params.opc.swreset, .cs .released, .wait .swreset] ++
          [.dc .C, .cs .asserted, .tx s.params.opc.slpout, .cs .released, .wait .slpout] ++
          [.dc .C, .cs .asserted, .tx s.params.opc.pixfmt, .cs .released] ++
          [.dc .D, .cs .asserted, .tx (if s.cfg.bgr then s.params.pixfmtBgr else s.params.pixfmtRgb), .cs .released] ++
          (if s.cfg.invert then [.dc .C, .cs .asserted, .tx s.params.opc.invon, .cs .released] else []) ++
          [.dc .C, .cs .asserted, .tx s.params.opc.dispon, .cs .released])
        .C (if s.cfg.invert then 6 else 5) with rst := .high, fsm := .ready }, .ok))

/-- INITIALIZE ends Ok or with BusFault, no other kind; on BusFault it stops at the failed transfer: AwaitingInit, `rst`
high, chip-select released, `orient` and `offset` as before, and the trace is a piece of the successful one closed by
the CS(0) of the failed transaction (spec/42_controller.md R91, spec/60_exceptions.md R116); the controller is Unknown and
frame memory forgotten (spec/20_memory.md R52; spec/93_implementation_defined.md U2). -/
def Obligations.InitialiseFaultIsFatal : Prop :=
  ∀ s t : State, exec .initialise s = .next t → t.results ≠ s.results ++ [.ok] →
    t.results = s.results ++ [.err .busFault] ∧ t.fsm = .awaitingInit ∧ t.rst = .high ∧ t.cs = .released ∧
    t.orient = s.orient ∧ t.offset = s.offset ∧ t.periph.pmode = .unknown ∧ t.periph.fm = [] ∧
    ∃ es, es <+: initEvents s.params s.cfg ∧ t.trace = s.trace ++ es ++ [.cs .released]

/-- SET_ORIENTATION in Ready on a fault-free link: the memory-access-control command with the byte of the orientation,
then `orient` (spec/42_controller.md R92, spec/30_encoding.md R62). -/
def Obligations.SetOrientationSendsAndRecords : Prop :=
  ∀ (s : State) (o : Orientation), s.fsm = .ready → LinkOk 2 s →
    exec (.setOrientation o) s =
      .next (respond ({ s.sent [.dc .C, .cs .asserted, .tx s.params.opc.madctl, .cs .released,
          .dc .D, .cs .asserted, .tx (madctlArgOf s.params o), .cs .released] .D 2 with orient := o }, .ok))

/-- SET_OFFSET, selector 3, in any state: the offset and nothing else, no event, no error
(spec/42_controller.md R93). -/
def Obligations.SetOffsetIsLocal : Prop :=
  (∀ (q : Params) (dx dy : Half), encode q (.setOffset dx dy) = some (.request { op := 0x3, a := dx, b := dy })) ∧
  ∀ (s : State) (dx dy : Half), exec (.setOffset dx dy) s =
    .next { s with offset := { dx := dx, dy := dy }, results := s.results ++ [.ok] }

/-- SET_WINDOW in Ready, physical window in the panel, fault-free link: column-address-set, row-address-set and
write-to-RAM with the relocated corners big-endian, on exact integers; no register but the lines, the window not kept; an
inverted window is sent as given (spec/42_controller.md R94, spec/30_encoding.md R60). -/
def Obligations.SetWindowProgramsController : Prop :=
  ∀ (s : State) (x0 y0 x1 y1 : Half) (X0 Y0 X1 Y1 : Int),
    X0 = x0.toNat + s.offset.dx.toInt → Y0 = y0.toNat + s.offset.dy.toInt →
    X1 = x1.toNat + s.offset.dx.toInt → Y1 = y1.toNat + s.offset.dy.toInt →
    s.fsm = .ready → InPanel s.cfg X0 Y0 X1 Y1 → LinkOk 5 s →
    exec (.setWindow x0 y0 x1 y1) s =
      .next (respond (s.sent (windowEvents s.params X0.toNat Y0.toNat X1.toNat Y1.toNat) .C 5, .ok))

/-- A window with a relocated corner outside the panel is never clamped: BoundsError, nothing changed; exact integers, so
no wrapped sum passes (spec/60_exceptions.md R113, spec/00_scope.md R7). -/
def Obligations.SetWindowOutsidePanelFails : Prop :=
  ∀ (s : State) (x0 y0 x1 y1 : Half) (X0 Y0 X1 Y1 : Int),
    X0 = x0.toNat + s.offset.dx.toInt → Y0 = y0.toNat + s.offset.dy.toInt →
    X1 = x1.toNat + s.offset.dx.toInt → Y1 = y1.toNat + s.offset.dy.toInt →
    s.fsm = .ready → ¬ InPanel s.cfg X0 Y0 X1 Y1 →
    exec (.setWindow x0 y0 x1 y1) s = .next { s with results := s.results ++ [.err .boundsError] }

/-- WRITE_PIXELS in Ready on a fault-free link: the bytes as they are, whatever their number
(spec/42_controller.md R95). -/
def Obligations.WritePixelsStreams : Prop :=
  ∀ (s : State) (bytes : List Byte), s.fsm = .ready → LinkOk 1 s →
    exec (.writePixels bytes) s =
      .next (respond (s.sent ([.dc .D, .cs .asserted] ++ bytes.map .tx ++ [.cs .released]) .D 1, .ok))

/-- CLEAR in Ready with zero offset on a fault-free link: the full-panel window, then one stream of W*H times the colour,
high byte first (spec/42_controller.md R96, spec/30_encoding.md R64). -/
def Obligations.ClearStreamsWholePanel : Prop :=
  ∀ (s : State) (color : Half), s.cfg.wf → s.fsm = .ready → s.offset = { dx := 0, dy := 0 } → LinkOk 6 s →
    exec (.clear color) s =
      .next (respond (s.sent (windowEvents s.params 0 0 (s.cfg.width - 1) (s.cfg.height - 1) ++
        pixelEvents (List.replicate (s.cfg.width * s.cfg.height)
          [BitVec.ofNat 8 (color.toNat / 256), BitVec.ofNat 8 (color.toNat % 256)]).flatten) .D 6, .ok))

/-- CLEAR in Ready fails with BoundsError exactly under a non-zero offset, and then nothing has changed
(spec/42_controller.md R96, spec/70_reset_and_hazards.md R145). -/
def Obligations.ClearFailsExactlyUnderOffset : Prop :=
  ∀ (s : State) (color : Half), s.cfg.wf → s.fsm = .ready →
    (exec (.clear color) s = .next { s with results := s.results ++ [.err .boundsError] } ↔
      s.offset ≠ { dx := 0, dy := 0 })

/-- DRAW in Ready of a well-shaped bitmap whose destination lies in the panel, fault-free link: the window of the
destination rectangle, then the bitmap's bytes in index order in one stream (spec/43_blit.md R100, R102, R103). -/
def Obligations.DrawStreamsBitmap : Prop :=
  ∀ (s : State) (x y roww : Half) (bytes : List Byte) (X0 Y0 X1 Y1 : Int),
    X0 = x.toNat + s.offset.dx.toInt → Y0 = y.toNat + s.offset.dy.toInt →
    X1 = x.toNat + roww.toNat - 1 + s.offset.dx.toInt →
    Y1 = y.toNat + (bytes.length / 2 / roww.toNat : Nat) - 1 + s.offset.dy.toInt →
    s.fsm = .ready → WellShaped bytes roww → InPanel s.cfg X0 Y0 X1 Y1 → LinkOk 6 s →
    exec (.draw x y roww bytes) s =
      .next (respond (s.sent (windowEvents s.params X0.toNat Y0.toNat X1.toNat Y1.toNat ++ pixelEvents bytes) .D 6,
        .ok))

/-- DRAW in Ready of a bitmap with no whole rectangle (row width zero, odd byte count, no pixels, incomplete last row) is
MalformedInput, wherever it would go, and changes nothing (spec/43_blit.md R101, spec/60_exceptions.md R114, R115). -/
def Obligations.DrawRefusesMalformedBitmap : Prop :=
  ∀ (s : State) (x y roww : Half) (bytes : List Byte), s.fsm = .ready → ¬ WellShaped bytes roww →
    exec (.draw x y roww bytes) s = .next { s with results := s.results ++ [.err .malformedInput] }

/-- DRAW in Ready of a well-shaped bitmap with a corner outside the panel is BoundsError: it does not clip, and nothing
has changed (spec/43_blit.md R100, spec/60_exceptions.md R113). -/
def Obligations.DrawOutsidePanelFails : Prop :=
  ∀ (s : State) (x y roww : Half) (bytes : List Byte) (X0 Y0 X1 Y1 : Int),
    X0 = x.toNat + s.offset.dx.toInt → Y0 = y.toNat + s.offset.dy.toInt →
    X1 = x.toNat + roww.toNat - 1 + s.offset.dx.toInt →
    Y1 = y.toNat + (bytes.length / 2 / roww.toNat : Nat) - 1 + s.offset.dy.toInt →
    s.fsm = .ready → WellShaped bytes roww → ¬ InPanel s.cfg X0 Y0 X1 Y1 →
    exec (.draw x y roww bytes) s = .next { s with results := s.results ++ [.err .boundsError] }

/-- The five gated operations before Ready: SequenceError whatever their operands, nothing changed
(spec/60_exceptions.md R112; the state check is first, R115). -/
def Obligations.GatedOperationsNeedReady : Prop :=
  ∀ s : State, s.fsm ≠ .ready →
    (∀ o, exec (.setOrientation o) s = .next { s with results := s.results ++ [.err .sequenceError] }) ∧
    (∀ x0 y0 x1 y1, exec (.setWindow x0 y0 x1 y1) s = .next { s with results := s.results ++ [.err .sequenceError] }) ∧
    (∀ bytes, exec (.writePixels bytes) s = .next { s with results := s.results ++ [.err .sequenceError] }) ∧
    (∀ color, exec (.clear color) s = .next { s with results := s.results ++ [.err .sequenceError] }) ∧
    ∀ x y roww bytes, exec (.draw x y roww bytes) s = .next { s with results := s.results ++ [.err .sequenceError] }

/-- A host operation that ends with SequenceError, MalformedInput or BoundsError leaves the machine exactly as it was but
for the result (spec/60_exceptions.md R116, spec/43_blit.md R104). -/
def Obligations.ValidationErrorsChangeNothing : Prop :=
  ∀ (s t : State) (i : Instr) (k : ErrKind), i.hostOperation = true → k ≠ .busFault →
    exec i s = .next t → t.results = s.results ++ [.err k] → t = { s with results := s.results ++ [.err k] }

/-- A BusFault outside INITIALIZE leaves `fsm`, `orient`, `offset` and `rst` as they were, also in SET_ORIENTATION, with
chip-select released, the controller indeterminate and frame memory forgotten (spec/60_exceptions.md R116;
spec/20_memory.md R52; spec/93_implementation_defined.md U2). -/
def Obligations.BusFaultKeepsRegisters : Prop :=
  ∀ (s t : State) (i : Instr), i.hostOperation = true → i ≠ .initialise →
    exec i s = .next t → t.results = s.results ++ [.err .busFault] →
    t.fsm = s.fsm ∧ t.orient = s.orient ∧ t.offset = s.offset ∧ t.rst = s.rst ∧ t.cs = .released ∧
    t.periph.pmode = .unknown ∧ t.periph.fm = []

/-! ### Wire commands -/

/-- Every wire command and the pixel stream, run as instructions (the model's choice, log 7), go out framed as their
formats WC0, WC1, WC4 and PX say, on a fault-free link from any state, and leave every register but `dc` and `cs` alone
(spec/30_encoding.md R55, R56). -/
def Obligations.WireCommandsGoOutFramed : Prop :=
  ∀ s : State,
    (LinkOk 1 s →
      exec .swreset s = .next (respond (s.sent (commandEvents s.params.opc.swreset []) .C 1, .ok)) ∧
      exec .slpout s = .next (respond (s.sent (commandEvents s.params.opc.slpout []) .C 1, .ok)) ∧
      exec .invon s = .next (respond (s.sent (commandEvents s.params.opc.invon []) .C 1, .ok)) ∧
      exec .dispon s = .next (respond (s.sent (commandEvents s.params.opc.dispon []) .C 1, .ok)) ∧
      exec .ramwr s = .next (respond (s.sent (commandEvents s.params.opc.ramwr []) .C 1, .ok)) ∧
      ∀ bytes, exec (.pixels bytes) s = .next (respond (s.sent (pixelEvents bytes) .D 1, .ok))) ∧
    (LinkOk 2 s →
      (∀ a, exec (.madctl a) s = .next (respond (s.sent (commandEvents s.params.opc.madctl [a]) .D 2, .ok))) ∧
      (∀ a, exec (.pixfmt a) s = .next (respond (s.sent (commandEvents s.params.opc.pixfmt [a]) .D 2, .ok))) ∧
      (∀ a b : Half, exec (.caset a b) s =
        .next (respond (s.sent (commandEvents s.params.opc.caset [hiByte a, loByte a, hiByte b, loByte b]) .D 2, .ok))) ∧
      ∀ a b : Half, exec (.raset a b) s =
        .next (respond (s.sent (commandEvents s.params.opc.raset [hiByte a, loByte a, hiByte b, loByte b]) .D 2, .ok)))

/-- SWRESET asleep or awake, between commands: the registers and frame memory are forgotten and the mandated wait begins
(spec/20_memory.md R46; which registers, log 10). -/
def Obligations.SoftwareResetForgets : Prop :=
  ∀ s : State, s.params.wf → LinkOk 1 s → (s.periph.pmode = .sleep ∨ s.periph.pmode = .awake) →
    s.periph.midCommand s.params.opc = false → s.periph.half = none →
    exec .swreset s = .next (respond ({ s.sent (commandEvents s.params.opc.swreset []) .C 1 with
      periph := { s.periph with pmode := .swResetWait, madctl := none, pixfmt := none, xs := none, xe := none,
                                ys := none, ye := none, inv := false, on := false, fm := [],
                                cur := some (s.params.opc.swreset, []) } }, .ok))

/-- SLPOUT asleep, between commands: the wake wait begins; awake, the controller's meaning is lost
(spec/20_memory.md R46). -/
def Obligations.SleepOutWakesOnlyASleeper : Prop :=
  ∀ s : State, s.params.wf → LinkOk 1 s → s.periph.midCommand s.params.opc = false → s.periph.half = none →
    (s.periph.pmode = .sleep → exec .slpout s =
      .next (respond ({ s.sent (commandEvents s.params.opc.slpout []) .C 1 with
        periph := { s.periph with pmode := .wakeWait, cur := some (s.params.opc.slpout, []) } }, .ok))) ∧
    (s.periph.pmode = .awake → ∃ t, exec .slpout s = .next t ∧ t.periph.pmode = .unknown)

/-- INVON, DISPON and PIXFMT awake set inversion, display and pixel format and nothing else of the controller
(spec/20_memory.md R46). -/
def Obligations.ModeCommandsSetTheirRegister : Prop :=
  ∀ s : State, s.params.wf → Attentive s →
    (LinkOk 1 s →
      exec .invon s = .next (respond ({ s.sent (commandEvents s.params.opc.invon []) .C 1 with
        periph := { s.periph with inv := true, cur := some (s.params.opc.invon, []) } }, .ok)) ∧
      exec .dispon s = .next (respond ({ s.sent (commandEvents s.params.opc.dispon []) .C 1 with
        periph := { s.periph with on := true, cur := some (s.params.opc.dispon, []) } }, .ok))) ∧
    (LinkOk 2 s → ∀ a, exec (.pixfmt a) s =
      .next (respond ({ s.sent (commandEvents s.params.opc.pixfmt [a]) .D 2 with
        periph := { s.periph with pixfmt := some a, cur := some (s.params.opc.pixfmt, [a]) } }, .ok)))

/-- MADCTL awake: one of the four bytes of spec/30_encoding.md R62 becomes the register's; if it differs from the register
it forgets frame memory (the model's choice: it supplies no re-mapping by XFORM, log 8); the write pointer is no longer primed
(spec/20_memory.md R47). Any other byte sends the controller to Unknown (spec/30_encoding.md R68, read against R47 as log 13
says), and frame memory is forgotten there too: the spec says that of a bus fault alone, for this byte it is the model's
choice (log 14). -/
def Obligations.MemoryAccessControlForgetsOnChange : Prop :=
  ∀ (s : State) (a : Byte), s.params.wf → Attentive s → LinkOk 2 s →
    (a ∈ madctlBytes s.params → exec (.madctl a) s =
      .next (respond ({ s.sent (commandEvents s.params.opc.madctl [a]) .D 2 with
        periph := { s.periph with madctl := some a, wp := none, cur := some (s.params.opc.madctl, [a]),
                                  fm := if s.periph.madctl = some a then s.periph.fm else [] } }, .ok))) ∧
    (a ∉ madctlBytes s.params → ∃ t, exec (.madctl a) s = .next t ∧ t.periph.pmode = .unknown ∧ t.periph.fm = [])

/-- CASET and RASET awake set the window's columns and rows from their four big-endian argument bytes
(spec/20_memory.md R48, spec/30_encoding.md R56). -/
def Obligations.WindowCommandsSetTheWindow : Prop :=
  ∀ (s : State) (a b : Half), s.params.wf → Attentive s → LinkOk 2 s →
    exec (.caset a b) s =
      .next (respond ({ s.sent (commandEvents s.params.opc.caset [hiByte a, loByte a, hiByte b, loByte b]) .D 2 with
        periph := { s.periph with xs := some a, xe := some b, wp := none,
                                  cur := some (s.params.opc.caset, [hiByte a, loByte a, hiByte b, loByte b]) } },
        .ok)) ∧
    exec (.raset a b) s =
      .next (respond ({ s.sent (commandEvents s.params.opc.raset [hiByte a, loByte a, hiByte b, loByte b]) .D 2 with
        periph := { s.periph with ys := some a, ye := some b, wp := none,
                                  cur := some (s.params.opc.raset, [hiByte a, loByte a, hiByte b, loByte b]) } }, .ok))

/-- RAMWR awake: with a known, not inverted window and a pixel format the write pointer stands at its first cell; with
none, the controller's meaning is lost (spec/20_memory.md R49). -/
def Obligations.WriteToRamPrimesThePointer : Prop :=
  ∀ s : State, s.params.wf → Attentive s → LinkOk 1 s →
    (∀ xs xe ys ye : Half, s.periph.xs = some xs → s.periph.xe = some xe → s.periph.ys = some ys →
      s.periph.ye = some ye → s.periph.pixfmt.isSome →
      (xs.toNat ≤ xe.toNat ∧ ys.toNat ≤ ye.toNat → exec .ramwr s =
        .next (respond ({ s.sent (commandEvents s.params.opc.ramwr []) .C 1 with
          periph := { s.periph with wp := some (xs, ys), cur := some (s.params.opc.ramwr, []) } }, .ok))) ∧
      (xe.toNat < xs.toNat ∨ ye.toNat < ys.toNat → ∃ t, exec .ramwr s = .next t ∧ t.periph.pmode = .unknown)) ∧
    (s.periph.xs = none ∨ s.periph.xe = none ∨ s.periph.ys = none ∨ s.periph.ye = none ∨ s.periph.pixfmt = none →
      ∃ t, exec .ramwr s = .next t ∧ t.periph.pmode = .unknown)

/-- One pixel, two bytes after write-to-RAM: the cell at the write pointer holds the word, high byte first, every other
byte of frame memory is as before, the pointer goes on in raster order inside the window, and nothing else changes
(spec/20_memory.md R50). -/
def Obligations.PixelLandsAtTheWritePointer : Prop :=
  ∀ (s : State) (h l : Byte) (x y xs xe ye : Half), s.params.wf → LinkOk 1 s → s.periph.pmode = .awake →
    s.periph.cur = some (s.params.opc.ramwr, []) → s.periph.half = none → s.periph.wp = some (x, y) →
    s.periph.xs = some xs → s.periph.xe = some xe → s.periph.ye = some ye →
    ∃ t, exec (.pixels [h, l]) s = .next t ∧ t.periph.fm.cell x y = some (h ++ l) ∧
      (∀ a, a ≠ cellAddr x y → a ≠ cellAddr x y + 1 → t.periph.fm.read a = s.periph.fm.read a) ∧
      t.periph.wp = (if x.toNat < xe.toNat then some (x + 1, y)
        else if y.toNat < ye.toNat then some (xs, y + 1) else none) ∧
      t = respond ({ s.sent (pixelEvents [h, l]) .D 1 with
        periph := { s.periph with fm := t.periph.fm, wp := t.periph.wp } }, .ok)

/-- A payload of one byte, where a pixel begins: inside the window the byte is left pending and no cell is written for it;
past the window's last cell it loses the controller's meaning (spec/20_memory.md R36, R50). -/
def Obligations.HalfPixelAndOverrun : Prop :=
  ∀ (s : State) (b : Byte), s.params.wf → LinkOk 1 s → s.periph.pmode = .awake →
    s.periph.cur = some (s.params.opc.ramwr, []) → s.periph.half = none →
    (∀ c xs xe ye, s.periph.wp = some c → s.periph.xs = some xs → s.periph.xe = some xe → s.periph.ye = some ye →
      exec (.pixels [b]) s = .next (respond ({ s.sent (pixelEvents [b]) .D 1 with
        periph := { s.periph with half := some b } }, .ok))) ∧
    (s.periph.wp = none → ∃ t, exec (.pixels [b]) s = .next t ∧ t.periph.pmode = .unknown)

/-! ### The controller over whole operations -/

/-- INITIALIZE on a fault-free link brings the controller from any condition to Awake and displaying, its window and frame
memory unknown (spec/20_memory.md R43 to R46; spec/95_test_vectors.md M1). -/
def Obligations.InitialiseBringsTheControllerUp : Prop :=
  ∀ s : State, s.params.wf → LinkOk (if s.cfg.invert then 6 else 5) s →
    ∃ t, exec .initialise s = .next t ∧ t.fsm = .ready ∧
      t.periph = { pmode := .awake, lowOk := true, madctl := s.params.madctlReset,
                   pixfmt := some (if s.cfg.bgr then s.params.pixfmtBgr else s.params.pixfmtRgb), inv := s.cfg.invert,
                   on := true, cur := some (s.params.opc.dispon, []) }

/-- Once Unknown, only RST(0) leaves it, whatever the trace (spec/20_memory.md R52, spec/90_conflicts.md C11). -/
def Obligations.OnlyResetLowLeavesUnknown : Prop :=
  ∀ (q : Params) (m : DcMode) (p : Periph) (es : List Event), p.pmode = .unknown → .rst .low ∉ es →
    (p.replay q m es).pmode = .unknown

/-- Where a byte loses the controller's meaning: in Unknown, in either reset phase, in either mandated wait, and a command
byte while half a pixel is pending or a command is cut short (spec/20_memory.md R45, R46, R52 b, c). -/
def Obligations.BytesOutOfPlaceLoseMeaning : Prop :=
  ∀ (q : Params) (p : Periph) (b : Byte),
    (p.pmode ≠ .sleep → p.pmode ≠ .awake → ∀ m, (p.receive q m b).pmode = .unknown) ∧
    (p.half.isSome → (p.receive q .C b).pmode = .unknown) ∧
    (p.midCommand q.opc = true → (p.receive q .C b).pmode = .unknown) ∧
    (p.cur = none → (p.receive q .D b).pmode = .unknown)

/-- A successful SET_ORIENTATION, SET_OFFSET, CLEAR, DRAW, or SET_WINDOW that is not inverted keeps the controller awake
and between commands, whatever draws the link made: the host that starts from a successful INITIALIZE keeps it out of
Unknown (spec/20_memory.md R52). -/
def Obligations.SuccessKeepsTheControllerKnown : Prop :=
  ∀ (s t : State) (i : Instr), s.params.wf → s.cfg.wf → Attentive s → s.periph.pixfmt.isSome →
    (match i with
      | .setOrientation _ | .setOffset _ _ | .clear _ | .draw _ _ _ _ => True
      | .setWindow x0 y0 x1 y1 => x0.toNat ≤ x1.toNat ∧ y0.toNat ≤ y1.toNat
      | _ => False) →
    exec i s = .next t → t.results = s.results ++ [.ok] → Attentive t ∧ t.periph.pixfmt.isSome

/-- DRAW, end to end: after a successful draw the j-th pixel of the bitmap stands in column `X0 + j mod roww`, row
`Y0 + j div roww` of frame memory, every cell outside the rectangle is as before, and the window is full
(spec/43_blit.md R103, spec/20_memory.md R50). -/
def Obligations.DrawFillsItsRectangle : Prop :=
  ∀ (s : State) (x y roww : Half) (bytes : List Byte) (X0 Y0 X1 Y1 : Int),
    X0 = x.toNat + s.offset.dx.toInt → Y0 = y.toNat + s.offset.dy.toInt →
    X1 = x.toNat + roww.toNat - 1 + s.offset.dx.toInt →
    Y1 = y.toNat + (bytes.length / 2 / roww.toNat : Nat) - 1 + s.offset.dy.toInt →
    s.params.wf → s.cfg.wf → Attentive s → s.periph.pixfmt.isSome →
    s.fsm = .ready → WellShaped bytes roww → InPanel s.cfg X0 Y0 X1 Y1 → LinkOk 6 s →
    ∃ t, exec (.draw x y roww bytes) s = .next t ∧ t.results = s.results ++ [.ok] ∧
      t.periph.pmode = .awake ∧ t.periph.half = none ∧ t.periph.wp = none ∧
      (∀ j, j < bytes.length / 2 →
        t.periph.fm.cell (BitVec.ofNat 16 (X0.toNat + j % roww.toNat)) (BitVec.ofNat 16 (Y0.toNat + j / roww.toNat)) =
          some (bytes.getD (2 * j) 0 ++ bytes.getD (2 * j + 1) 0)) ∧
      ∀ u v : Half, ¬ ((X0 ≤ u.toNat ∧ (u.toNat : Int) ≤ X1) ∧ Y0 ≤ v.toNat ∧ (v.toNat : Int) ≤ Y1) →
        t.periph.fm.cell u v = s.periph.fm.cell u v

/-- CLEAR, end to end: after a successful clear every cell of the panel holds the colour and every other cell is as before
(spec/42_controller.md R96, spec/20_memory.md R50). -/
def Obligations.ClearFillsThePanel : Prop :=
  ∀ (s : State) (color : Half), s.params.wf → s.cfg.wf → Attentive s → s.periph.pixfmt.isSome →
    s.fsm = .ready → s.offset = { dx := 0, dy := 0 } → LinkOk 6 s →
    ∃ t, exec (.clear color) s = .next t ∧ t.results = s.results ++ [.ok] ∧ t.periph.pmode = .awake ∧
      ∀ u v : Half, t.periph.fm.cell u v =
        if u.toNat < s.cfg.width ∧ v.toNat < s.cfg.height then some color else s.periph.fm.cell u v

/-- A pixel stream may be split over two WRITE_PIXELS calls: the framed byte stream and the controller are as after one
call (spec/30_encoding.md R57, spec/41_framer.md R82). -/
def Obligations.PixelStreamMayBeSplit : Prop :=
  ∀ (s : State) (a b : List Byte), s.fsm = .ready → LinkOk 2 s →
    ∃ t u v es fs, exec (.writePixels a) s = .next t ∧ exec (.writePixels b) t = .next u ∧
      exec (.writePixels (a ++ b)) s = .next v ∧ u.periph = v.periph ∧ u.dc = v.dc ∧
      u.trace = s.trace ++ es ∧ v.trace = s.trace ++ fs ∧ framed s.dc es = framed s.dc fs

/-! ### Invariants and whole-machine rules -/

/-- Chip-select is released whenever no operation is running: every step keeps it (spec/10_state.md R22). -/
def Obligations.StepsKeepChipSelectReleased : Prop :=
  ∀ s t : State, Idle s → step s = .next t → Idle t

/-- The pin trace keeps its shape over every step: a drive of `dc` before every window, at most one byte under C, RST and
WAIT outside the windows, every window closed (spec/41_framer.md R85, R84; spec/40_bus_transport.md R71). -/
def Obligations.StepsKeepTheTraceWellFramed : Prop :=
  ∀ s t : State, WellFramed s.trace → step s = .next t → WellFramed t.trace

/-- Frame memory keeps its canonical form over every step (the model's representation, log 6). -/
def Obligations.StepsKeepFrameMemoryCanonical : Prop :=
  ∀ s t : State, s.periph.fm.wf → step s = .next t → t.periph.fm.wf

/-- Once the block has left Uninitialized the reset line is high between operations, over every step
(spec/10_state.md R13, spec/42_controller.md R98). -/
def Obligations.StepsKeepResetReleased : Prop :=
  ∀ s t : State, ResetReleased s → step s = .next t → ResetReleased t

/-- The machine at reset meets the five invariants (spec/10_state.md R22, R23; its configuration is the model's, log 2). -/
def Obligations.ResetMeetsTheInvariants : Prop :=
  Idle State.reset ∧ WellFramed State.reset.trace ∧ State.reset.periph.fm.wf ∧ ResetReleased State.reset ∧
  Forgotten State.reset

/-- The construction values the spec gives, for every configuration record inside the invariant, and the refusal outside
it (spec/10_state.md R23, spec/00_scope.md R2). `dc` and `rst` are free values (log 1) and are not stated. -/
def Obligations.ConstructionValues : Prop :=
  ∀ (c : PanelCfg) (q : Params),
    (c.wf → ∃ s, State.construct c q = .next s ∧ s.fsm = .uninitialized ∧ s.cs = .released ∧ s.orient = .normal ∧
      s.offset = { dx := 0, dy := 0 } ∧ s.cfg = c ∧ s.trace = [] ∧ s.periph.pmode = .unknown) ∧
    (¬ c.wf → State.construct c q = .refused .noBlock)

/-- The transitions of `fsm`: RESET ends in AwaitingInit, INITIALIZE in Ready if it succeeds and in AwaitingInit if not,
and nothing else moves it, whatever its result (spec/42_controller.md R98). -/
def Obligations.LifecycleTransitions : Prop :=
  ∀ (s t : State) (i : Instr), exec i s = .next t →
    match i with
    | .reset => t.fsm = .awaitingInit
    | .initialise =>
      (t.results = s.results ++ [.ok] ∧ t.fsm = .ready) ∨
      (t.results = s.results ++ [.err .busFault] ∧ t.fsm = .awaitingInit)
    | _ => t.fsm = s.fsm

/-- The configuration record and the parameters never change (spec/00_scope.md R2, spec/10_state.md R17). -/
def Obligations.ConfigurationIsImmutable : Prop :=
  ∀ s t : State, step s = .next t → t.cfg = s.cfg ∧ t.params = s.params

/-- `orient` and `offset` are mutated only by their own set operation (spec/10_state.md R15, R16). -/
def Obligations.OnlySettersWriteOrientAndOffset : Prop :=
  ∀ (s t : State) (i : Instr), exec i s = .next t →
    ((∀ o, i ≠ .setOrientation o) → t.orient = s.orient) ∧ ((∀ dx dy, i ≠ .setOffset dx dy) → t.offset = s.offset)

/-- Events are only ever appended, and each operation gives exactly one result (spec/20_memory.md R40,
spec/00_scope.md R4). -/
def Obligations.OperationsAppendEventsAndOneResult : Prop :=
  ∀ (s t : State) (i : Instr), exec i s = .next t →
    (∃ es, t.trace = s.trace ++ es) ∧ ∃ r, t.results = s.results ++ [r]

/-- No step sends a command byte outside the nine, whatever is asked and however the link fails (spec/30_encoding.md R59);
and where the nine are distinct, the argument sent to memory-access-control is always one of the four of
spec/30_encoding.md R62 (spec/30_encoding.md R68, wire side). The rules speak of the block, so of steps that run a host
request; a step may also run a wire frame (the model's choice, log 7), and of such a step the statement rests on the
decoder's refusal of frames with a byte outside these (for memory-access-control the model's, deduced, log 13). -/
def Obligations.OnlyTheNineCommandBytes : Prop :=
  ∀ s t : State, step s = .next t → ∃ es, t.trace = s.trace ++ es ∧ (∀ m, OnlyCommands s.params m es) ∧
    (s.params.wf → ∀ m, OnlyOrientationBytes s.params m es)

/-- `rst` is driven by RESET, INITIALIZE and HWRESET alone (spec/10_state.md R13, spec/41_framer.md R84 d). -/
def Obligations.OnlyResetsDriveTheResetLine : Prop :=
  ∀ (s t : State) (i : Instr), i ≠ .reset → i ≠ .initialise → i ≠ .hwReset → exec i s = .next t →
    t.rst = s.rst ∧ ∃ es, t.trace = s.trace ++ es ∧ ∀ l, .rst l ∉ es

/-- No rule of the block reads `orient`: two machines that differ in it alone give the same trace, the same results and the
same controller under every operation (spec/10_state.md R15, spec/43_blit.md R103). -/
def Obligations.OrientationLeaksNowhere : Prop :=
  ∀ (s t : State) (i : Instr) (o : Orientation), exec i s = .next t →
    ∃ u, exec i { s with orient := o } = .next u ∧ u = { t with orient := u.orient }

/-- INITIALIZE run twice sends the same command sequence both times (spec/42_controller.md R91;
spec/95_test_vectors.md V2). -/
def Obligations.InitialiseTwiceSendsTheSame : Prop :=
  ∀ s : State, LinkOk (if s.cfg.invert then 12 else 10) s →
    ∃ t u es, exec .initialise s = .next t ∧ exec .initialise t = .next u ∧ t.trace = s.trace ++ es ∧
      u.trace = t.trace ++ es ∧ u.results = s.results ++ [.ok, .ok]

/-- While the controller is Unknown no content of frame memory is known: every step keeps it (spec/20_memory.md R52,
spec/93_implementation_defined.md U2; for losses of meaning other than a bus fault the model's choice, log 14). -/
def Obligations.StepsKeepUnknownForgotten : Prop :=
  ∀ s t : State, Forgotten s → step s = .next t → Forgotten t
end

