-- ==== Sys2Proof/Laws/Decode.lean ====
section
/-! SUPPORT. The small lemmas of the decoder's tables: which command each command byte is, and the byte split joined
again. -/

namespace Sys2Proof

/-- Nine distinct command bytes: each is looked up as its own command. -/
theorem commandOf_opcodes {c : Opcodes} (h : (Machine.opcodeList c).Nodup) :
    Machine.commandOf c c.swreset = some .swreset ∧ Machine.commandOf c c.slpout = some .slpout ∧
    Machine.commandOf c c.invon = some .invon ∧ Machine.commandOf c c.dispon = some .dispon ∧
    Machine.commandOf c c.caset = some .caset ∧ Machine.commandOf c c.raset = some .raset ∧
    Machine.commandOf c c.ramwr = some .ramwr ∧ Machine.commandOf c c.madctl = some .madctl ∧
    Machine.commandOf c c.pixfmt = some .pixfmt := by
  have hr := List.nodup_reverse.mpr h
  simp only [Machine.opcodeList, List.reverse_cons, List.reverse_nil, List.nil_append, List.cons_append,
    List.nodup_cons, List.mem_cons, List.not_mem_nil, not_or, or_false] at hr
  simp [Machine.commandOf, hr]

theorem hiByte_append_loByte (v : Half) : hiByte v ++ loByte v = v := by
  unfold hiByte loByte
  exact BitVec.extractLsb'_append_extractLsb'_eq_extractLsb' (by omega) |>.trans (by simp)

theorem allData_dataBytes (bs : List Byte) : allData (dataBytes bs) = true := by
  simp [allData, dataBytes]

theorem map_snd_dataBytes (bs : List Byte) : (dataBytes bs).map Prod.snd = bs := by
  simp [dataBytes, Function.comp_def]

end Sys2Proof
end

