-- ==== Sys2Proof/Laws/Memory.lean ====
section
/-! SUPPORT. Frame memory: every memory operation keeps the canonical form, a read after a write, and the same for the
16-bit cells. -/

namespace Sys2Proof.Machine

theorem read_write (m : Memory) (a a' : Nat) (b : Byte) :
    (m.write a b).read a' = if a' = a then some b else m.read a' := by
  induction m with
  | nil => simp [Memory.write, Memory.read]
  | cons c m ih =>
    obtain ⟨k, v⟩ := c
    unfold Memory.write
    by_cases h1 : a < k
    · simp only [if_pos h1, Memory.read]
    · by_cases h2 : a = k
      · subst h2
        simp only [if_neg h1, if_true, Memory.read]
        by_cases h3 : a' = a <;> simp [h3]
      · simp only [if_neg h1, if_neg h2, Memory.read, ih]
        by_cases h3 : a' = k
        · simp [h3, Ne.symm h2]
        · simp [h3]

theorem mem_write_keys (m : Memory) (a : Nat) (b : Byte) (k : Nat) (h : k ∈ (m.write a b).map Prod.fst) :
    k = a ∨ k ∈ m.map Prod.fst := by
  induction m with
  | nil => simpa [Memory.write] using h
  | cons c m ih =>
    obtain ⟨k', v⟩ := c
    unfold Memory.write at h
    split_ifs at h with h1 h2
    · simpa using h
    · subst h2
      rcases List.mem_cons.mp h with h | h
      · exact .inl h
      · exact .inr (List.mem_cons_of_mem _ h)
    · rcases List.mem_cons.mp h with h | h
      · exact .inr (by simpa using .inl h)
      · rcases ih h with h | h
        · exact .inl h
        · exact .inr (List.mem_cons_of_mem _ h)

theorem write_wf (m : Memory) (a : Nat) (b : Byte) (ha : a < 8589934592) (h : m.wf) : (m.write a b).wf := by
  refine ⟨?_, fun k hk => ?_⟩
  · obtain ⟨h, -⟩ := h
    induction m with
    | nil => simp [Memory.write]
    | cons c m ih =>
      obtain ⟨k, v⟩ := c
      obtain ⟨hk, hm⟩ := List.pairwise_cons.mp h
      unfold Memory.write
      split_ifs with h1 h2
      · refine List.pairwise_cons.mpr ⟨fun x hx => ?_, h⟩
        rcases List.mem_cons.mp hx with rfl | hx
        · exact h1
        · exact lt_trans h1 (hk x hx)
      · subst h2
        exact List.pairwise_cons.mpr ⟨hk, hm⟩
      · refine List.pairwise_cons.mpr ⟨fun x hx => ?_, ih hm⟩
        rcases mem_write_keys m a b x hx with rfl | hx
        · exact show k < x by omega
        · exact hk x hx
  · rcases mem_write_keys m a b k hk with rfl | hk
    · exact ha
    · exact h.2 k hk

theorem cellAddr_lt (x y : Half) : cellAddr x y + 1 < 8589934592 := by
  have hx := x.isLt
  have hy := y.isLt
  unfold cellAddr
  omega

theorem cellAddr_inj (x y x' y' : Half) (h : cellAddr x y = cellAddr x' y') : x = x' ∧ y = y' := by
  have hx := x.isLt
  have hx' := x'.isLt
  unfold cellAddr at h
  exact ⟨BitVec.eq_of_toNat_eq (by omega), BitVec.eq_of_toNat_eq (by omega)⟩

theorem setCell_wf (m : Memory) (x y : Half) (h l : Byte) (hm : m.wf) : (m.setCell x y h l).wf := by
  have := cellAddr_lt x y
  exact write_wf _ _ _ this (write_wf _ _ _ (by omega) hm)

/-- Frame memory with nothing listed, as at reset. -/
theorem empty_wf : Memory.wf [] := by simp [Memory.wf]

/-- All that `setCell` does: its own cell holds the word, every other cell is as before. -/
theorem cell_setCell (m : Memory) (x y x' y' : Half) (h l : Byte) :
    (m.setCell x y h l).cell x' y' = if x' = x ∧ y' = y then some (h ++ l) else m.cell x' y' := by
  have hodd : ∀ u v u' v' : Half, cellAddr u v ≠ cellAddr u' v' + 1 := by
    intro u v u' v'
    unfold cellAddr
    omega
  unfold Memory.setCell Memory.cell
  simp only [read_write]
  by_cases he : cellAddr x' y' = cellAddr x y
  · obtain ⟨rfl, rfl⟩ := cellAddr_inj _ _ _ _ he
    simp
  · have hne : ¬ (x' = x ∧ y' = y) := fun ⟨hx, hy⟩ => he (by rw [hx, hy])
    simp [he, hne, hodd, (hodd _ _ _ _).symm]

end Sys2Proof.Machine
end

