-- ==== Sys2Proof/Laws/Periph.lean ====
section
/-! SUPPORT. The reference peripheral: what a trace does piece by piece, and that no event breaks the canonical form of
frame memory. -/

namespace Sys2Proof.Machine

theorem replay_append (q : Params) (m : DcMode) (p : Periph) (es fs : List Event) :
    p.replay q m (es ++ fs) = (p.replay q m es).replay q (es.foldl modeAfter m) fs := by
  induction es generalizing m p with
  | nil => rfl
  | cons e es ih => simp only [List.cons_append, Periph.replay, List.foldl_cons, ih]

theorem modeAfter_tx (m : DcMode) (bs : List Byte) : (bs.map Event.tx).foldl modeAfter m = m := by
  induction bs with
  | nil => rfl
  | cons b bs ih => simpa [modeAfter] using ih

theorem replay_tx (q : Params) (m : DcMode) (p : Periph) (bs : List Byte) :
    p.replay q m (bs.map .tx) = bs.foldl (fun p b => p.receive q m b) p := by
  induction bs generalizing p with
  | nil => rfl
  | cons b bs ih => simp only [List.map_cons, Periph.replay, List.foldl_cons, ← ih]; rfl

/-- One chip-select window: the controller receives its bytes under the mode on `dc`. -/
theorem replay_transaction (q : Params) (m : DcMode) (p : Periph) (bs : List Byte) :
    p.replay q m (transactionEvents bs) = bs.foldl (fun p b => p.receive q m b) p := by
  simp only [transactionEvents, List.cons_append, Periph.replay, replay_append, replay_tx]
  rfl

theorem modeAfter_transaction (m : DcMode) (bs : List Byte) : (transactionEvents bs).foldl modeAfter m = m := by
  simp [transactionEvents, modeAfter, modeAfter_tx]

/-- One command on the wire: the controller receives the command byte under C, then the arguments under D. -/
theorem replay_command (q : Params) (m : DcMode) (p : Periph) (op : Byte) (args : List Byte) :
    p.replay q m (commandEvents op args) = args.foldl (fun p b => p.receive q .D b) (p.receive q .C op) := by
  unfold commandEvents
  rw [List.cons_append, Periph.replay, replay_append, replay_transaction, modeAfter_transaction]
  split_ifs with h
  · subst h; rfl
  · rw [Periph.replay, replay_transaction]; rfl

/-- A pixel stream on the wire: the controller receives the bytes under D. -/
theorem replay_pixels (q : Params) (m : DcMode) (p : Periph) (bs : List Byte) :
    p.replay q m (pixelEvents bs) = bs.foldl (fun p b => p.receive q .D b) p := by
  rw [pixelEvents, Periph.replay, replay_transaction]; rfl

theorem modeAfter_command (m : DcMode) (op : Byte) (args : List Byte) :
    (commandEvents op args).foldl modeAfter m = if args = [] then .C else .D := by
  unfold commandEvents
  rw [List.cons_append, List.foldl_cons, List.foldl_append, modeAfter_transaction]
  split_ifs with h
  · rfl
  · rw [List.foldl_cons, modeAfter_transaction]; rfl

@[simp] theorem lose_pmode (p : Periph) : p.lose.pmode = .unknown := rfl
@[simp] theorem lose_fm (p : Periph) : p.lose.fm = [] := rfl

/-- What is said of a controller's phase and frame memory together, and that no event can break: it holds where nothing of
frame memory is known, it survives a change of phase to any but `Unknown`, and a pixel written outside `Unknown` keeps it. -/
structure Kept (Q : PMode → Memory → Prop) : Prop where
  forgotten : ∀ m, Q m []
  phase : ∀ m m' fm, Q m fm → m' ≠ .unknown → Q m' fm
  cell : ∀ m fm x y h l, Q m fm → m ≠ .unknown → Q m (fm.setCell x y h l)

section
variable {Q : PMode → Memory → Prop} (hQ : Kept Q)
include hQ

theorem execute_keeps (q : Params) (k : Command) (args : List Byte) (p : Periph) (h : Q p.pmode p.fm) :
    Q (p.execute q k args).pmode (p.execute q k args).fm := by
  unfold Periph.execute
  split
  case h_6 => -- write-to-RAM
    unfold Periph.prime
    split
    · split_ifs
      · exact h
      · exact hQ.forgotten _
    · exact hQ.forgotten _
  case h_8 => -- memory-access-control
    split_ifs
    · simp only [Periph.setMadctl]
      split_ifs
      · exact h
      · exact hQ.forgotten _
    · exact hQ.forgotten _
  all_goals first | exact h | exact hQ.forgotten _ | exact hQ.phase _ _ _ h (by simp)

theorem onPixelByte_keeps (b : Byte) (p : Periph) (h : Q p.pmode p.fm) (hu : p.pmode ≠ .unknown) :
    Q (p.onPixelByte b).pmode (p.onPixelByte b).fm := by
  unfold Periph.onPixelByte
  split
  · split
    · exact h
    · exact hQ.cell _ _ _ _ _ _ h hu
  · exact hQ.forgotten _

theorem receive_keeps (q : Params) (m : DcMode) (b : Byte) (p : Periph) (h : Q p.pmode p.fm) :
    Q (p.receive q m b).pmode (p.receive q m b).fm := by
  cases m with
  | C =>
    simp only [Periph.receive, Periph.onCommandByte]
    split_ifs
    · exact hQ.forgotten _
    · exact hQ.forgotten _
    · exact hQ.forgotten _
    · split
      · exact hQ.forgotten _
      · split_ifs
        · exact execute_keeps hQ _ _ _ _ h
        · exact h
  | D =>
    simp only [Periph.receive, Periph.onDataByte]
    split_ifs with hl
    · exact hQ.forgotten _
    · have hu : p.pmode ≠ .unknown := by rintro hu; simp [Periph.listens, hu] at hl
      split
      · exact hQ.forgotten _
      · split
        · exact hQ.forgotten _
        · split_ifs
          · exact execute_keeps hQ _ _ _ _ h
          · exact h
          · exact onPixelByte_keeps hQ _ _ h hu
          · exact hQ.forgotten _

theorem onEvent_keeps (q : Params) (m : DcMode) (p : Periph) (e : Event) (h : Q p.pmode p.fm) :
    Q (p.onEvent q m e).pmode (p.onEvent q m e).fm := by
  cases e with
  | rst l =>
    cases l with
    | low => exact hQ.forgotten _
    | high =>
      simp only [Periph.onEvent, Periph.onRstHigh]
      split
      · split_ifs
        · exact hQ.phase _ _ _ h (by simp)
        · exact hQ.forgotten _
      · exact h
  | dc m' => exact h
  | cs a => exact h
  | tx b => exact receive_keeps hQ q m b p h
  | wait w =>
    simp only [Periph.onEvent, Periph.onWait]
    split <;> first | exact h | exact hQ.phase _ _ _ h (by simp)

theorem replay_keeps (q : Params) (m : DcMode) (p : Periph) (es : List Event) (h : Q p.pmode p.fm) :
    Q (p.replay q m es).pmode (p.replay q m es).fm := by
  induction es generalizing m p with
  | nil => exact h
  | cons e es ih => exact ih _ _ (onEvent_keeps hQ q m p e h)

end

theorem kept_wf : Kept fun _ fm => fm.wf :=
  { forgotten := fun _ => empty_wf
    phase := fun _ _ _ h _ => h
    cell := fun _ _ _ _ _ _ h _ => setCell_wf _ _ _ _ _ h }

theorem kept_forgotten : Kept fun m fm => m = .unknown → fm = [] :=
  { forgotten := fun _ _ => rfl
    phase := fun _ _ _ _ h e => absurd e h
    cell := fun _ _ _ _ _ _ _ h e => absurd e h }

/-- No trace breaks the canonical form of frame memory. -/
theorem replay_wf (q : Params) (m : DcMode) (p : Periph) (es : List Event) (h : p.fm.wf) : (p.replay q m es).fm.wf :=
  replay_keeps kept_wf q m p es h

/-- No trace leaves a known cell behind in `Unknown`. -/
theorem replay_forgotten (q : Params) (m : DcMode) (p : Periph) (es : List Event) (h : p.pmode = .unknown → p.fm = []) :
    (p.replay q m es).pmode = .unknown → (p.replay q m es).fm = [] :=
  replay_keeps kept_forgotten q m p es h

end Sys2Proof.Machine
end

