-- ==== Sys2Proof/Laws/Commands.lean ====
section
/-! SUPPORT. What the controller does with a whole command, said once per format: while it listens between commands, it
executes the command with exactly the arguments sent (spec/20_memory.md R45, spec/30_encoding.md R56). And the byte
split of spec/30_encoding.md R61 joined again. -/

namespace Sys2Proof.Machine

theorem be16_toNat (v : Half) : be16 v.toNat = [hiByte v, loByte v] := by
  simp only [be16, hiByte, loByte, List.cons.injEq, and_true]
  constructor <;> apply BitVec.eq_of_toNat_eq <;> simp [BitVec.extractLsb'_toNat, Nat.shiftRight_eq_div_pow]

theorem be16_join (v : Nat) : (BitVec.ofNat 8 (v / 256) ++ BitVec.ofNat 8 (v % 256) : Half) = BitVec.ofNat 16 v := by
  apply BitVec.eq_of_toNat_eq
  rw [BitVec.toNat_append, BitVec.toNat_ofNat, BitVec.toNat_ofNat, BitVec.toNat_ofNat, Nat.shiftLeft_eq,
    ← Nat.shiftLeft_eq, ← Nat.shiftLeft_add_eq_or_of_lt (by omega), Nat.shiftLeft_eq]
  omega

/-- In a phase that takes bytes, no command cut short and no half pixel pending (spec/20_memory.md R45, R52). -/
structure TakesCommand (q : Params) (p : Periph) : Prop where
  listens : p.pmode = .sleep ∨ p.pmode = .awake
  between : p.midCommand q.opc = false
  whole : p.half = none

theorem listens_of {p : Periph} (h : p.pmode = .sleep ∨ p.pmode = .awake) : p.listens = true := by
  rcases h with h | h <;> simp [Periph.listens, h]

theorem receive_command_last {q : Params} {p : Periph} {b : Byte} {k : Command} (h : TakesCommand q p)
    (hk : commandOf q.opc b = some k) (hn : nargs k = 0) :
    p.receive q .C b = Periph.execute q k [] { p with cur := some (b, []) } := by
  simp [Periph.receive, Periph.onCommandByte, h.between, listens_of h.listens, h.whole, hk, hn]

theorem receive_command_first {q : Params} {p : Periph} {b : Byte} {k : Command} (h : TakesCommand q p)
    (hk : commandOf q.opc b = some k) (hn : nargs k ≠ 0) : p.receive q .C b = { p with cur := some (b, []) } := by
  simp [Periph.receive, Periph.onCommandByte, h.between, listens_of h.listens, h.whole, hk, hn]

theorem receive_argument_last {q : Params} {p : Periph} {b op : Byte} {args : List Byte} {k : Command}
    (hl : p.pmode = .sleep ∨ p.pmode = .awake) (hc : p.cur = some (op, args)) (hk : commandOf q.opc op = some k)
    (hn : args.length + 1 = nargs k) :
    p.receive q .D b = Periph.execute q k (args ++ [b]) { p with cur := some (op, args ++ [b]) } := by
  have h2 : args.length < nargs k := by omega
  simp [Periph.receive, Periph.onDataByte, listens_of hl, hc, hk, hn, h2]

theorem receive_argument {q : Params} {p : Periph} {b op : Byte} {args : List Byte} {k : Command}
    (hl : p.pmode = .sleep ∨ p.pmode = .awake) (hc : p.cur = some (op, args)) (hk : commandOf q.opc op = some k)
    (hn : args.length + 1 < nargs k) : p.receive q .D b = { p with cur := some (op, args ++ [b]) } := by
  have h2 : args.length < nargs k := by omega
  have h3 : args.length + 1 ≠ nargs k := by omega
  simp [Periph.receive, Periph.onDataByte, listens_of hl, hc, hk, h2, h3]

/-- A command of format WC0. -/
theorem replay_command0 {q : Params} {p : Periph} {b : Byte} {k : Command} (m : DcMode) (h : TakesCommand q p)
    (hk : commandOf q.opc b = some k) (hn : nargs k = 0) :
    p.replay q m (commandEvents b []) = Periph.execute q k [] { p with cur := some (b, []) } := by
  rw [replay_command, receive_command_last h hk hn]
  rfl

/-- A command of format WC1. -/
theorem replay_command1 {q : Params} {p : Periph} {b : Byte} {k : Command} (m : DcMode) (a : Byte) (h : TakesCommand q p)
    (hk : commandOf q.opc b = some k) (hn : nargs k = 1) :
    p.replay q m (commandEvents b [a]) = Periph.execute q k [a] { p with cur := some (b, [a]) } := by
  rw [replay_command, receive_command_first h hk (by omega), List.foldl_cons, List.foldl_nil,
    receive_argument_last (p := { p with cur := some (b, []) }) h.listens rfl hk (by simp [hn])]
  rfl

/-- A command of format WC4. -/
theorem replay_command4 {q : Params} {p : Periph} {b : Byte} {k : Command} (m : DcMode) (a0 a1 a2 a3 : Byte)
    (h : TakesCommand q p) (hk : commandOf q.opc b = some k) (hn : nargs k = 4) :
    p.replay q m (commandEvents b [a0, a1, a2, a3]) =
      Periph.execute q k [a0, a1, a2, a3] { p with cur := some (b, [a0, a1, a2, a3]) } := by
  rw [replay_command, receive_command_first h hk (by omega)]
  simp only [List.foldl_cons, List.foldl_nil]
  rw [receive_argument (p := { p with cur := some (b, []) }) h.listens rfl hk (by simp [hn]),
    receive_argument (p := { p with cur := some (b, _) }) h.listens rfl hk (by simp [hn]),
    receive_argument (p := { p with cur := some (b, _) }) h.listens rfl hk (by simp [hn]),
    receive_argument_last (p := { p with cur := some (b, _) }) h.listens rfl hk (by simp [hn])]
  rfl

/-- A data byte while write-to-RAM is the command: a pixel byte. -/
theorem receive_pixel_byte {q : Params} {p : Periph} {b : Byte} (hq : q.wf) (hl : p.pmode = .awake)
    (hc : p.cur = some (q.opc.ramwr, [])) : p.receive q .D b = p.onPixelByte b := by
  have c := commandOf_opcodes hq.1
  have : p.listens = true := by simp [Periph.listens, hl]
  simp [Periph.receive, Periph.onDataByte, this, hc, c, nargs]

end Sys2Proof.Machine
end

