-- ==== Sys2Proof/Laws/State.lean ====
section
/-! SUPPORT. One lemma per field per update of State, true by rfl, so that no proof unfolds a record update; and the two
induction facts about `transmit`. -/

namespace Sys2Proof.Machine

@[simp] theorem emit_cs (e : Event) (s : State) : (emit e s).cs = s.cs := rfl
@[simp] theorem emit_dc (e : Event) (s : State) : (emit e s).dc = s.dc := rfl
@[simp] theorem emit_rst (e : Event) (s : State) : (emit e s).rst = s.rst := rfl
@[simp] theorem emit_fsm (e : Event) (s : State) : (emit e s).fsm = s.fsm := rfl
@[simp] theorem emit_orient (e : Event) (s : State) : (emit e s).orient = s.orient := rfl
@[simp] theorem emit_offset (e : Event) (s : State) : (emit e s).offset = s.offset := rfl
@[simp] theorem emit_cfg (e : Event) (s : State) : (emit e s).cfg = s.cfg := rfl
@[simp] theorem emit_params (e : Event) (s : State) : (emit e s).params = s.params := rfl
@[simp] theorem emit_periph (e : Event) (s : State) : (emit e s).periph = s.periph.onEvent s.params s.dc e := rfl
@[simp] theorem emit_trace (e : Event) (s : State) : (emit e s).trace = s.trace ++ [e] := rfl
@[simp] theorem emit_results (e : Event) (s : State) : (emit e s).results = s.results := rfl
@[simp] theorem emit_inputs (e : Event) (s : State) : (emit e s).inputs = s.inputs := rfl
@[simp] theorem emit_link (e : Event) (s : State) : (emit e s).link = s.link := rfl
@[simp] theorem emit_draws (e : Event) (s : State) : (emit e s).draws = s.draws := rfl

@[simp] theorem driveRst_cs (l : Level) (s : State) : (driveRst l s).cs = s.cs := rfl
@[simp] theorem driveRst_dc (l : Level) (s : State) : (driveRst l s).dc = s.dc := rfl
@[simp] theorem driveRst_rst (l : Level) (s : State) : (driveRst l s).rst = l := rfl
@[simp] theorem driveRst_fsm (l : Level) (s : State) : (driveRst l s).fsm = s.fsm := rfl
@[simp] theorem driveRst_orient (l : Level) (s : State) : (driveRst l s).orient = s.orient := rfl
@[simp] theorem driveRst_offset (l : Level) (s : State) : (driveRst l s).offset = s.offset := rfl
@[simp] theorem driveRst_cfg (l : Level) (s : State) : (driveRst l s).cfg = s.cfg := rfl
@[simp] theorem driveRst_params (l : Level) (s : State) : (driveRst l s).params = s.params := rfl
@[simp] theorem driveRst_periph (l : Level) (s : State) : (driveRst l s).periph = s.periph.onEvent s.params s.dc (.rst l) := rfl
@[simp] theorem driveRst_trace (l : Level) (s : State) : (driveRst l s).trace = s.trace ++ [.rst l] := rfl
@[simp] theorem driveRst_results (l : Level) (s : State) : (driveRst l s).results = s.results := rfl
@[simp] theorem driveRst_inputs (l : Level) (s : State) : (driveRst l s).inputs = s.inputs := rfl
@[simp] theorem driveRst_link (l : Level) (s : State) : (driveRst l s).link = s.link := rfl
@[simp] theorem driveRst_draws (l : Level) (s : State) : (driveRst l s).draws = s.draws := rfl

@[simp] theorem driveDc_cs (m : DcMode) (s : State) : (driveDc m s).cs = s.cs := rfl
@[simp] theorem driveDc_dc (m : DcMode) (s : State) : (driveDc m s).dc = m := rfl
@[simp] theorem driveDc_rst (m : DcMode) (s : State) : (driveDc m s).rst = s.rst := rfl
@[simp] theorem driveDc_fsm (m : DcMode) (s : State) : (driveDc m s).fsm = s.fsm := rfl
@[simp] theorem driveDc_orient (m : DcMode) (s : State) : (driveDc m s).orient = s.orient := rfl
@[simp] theorem driveDc_offset (m : DcMode) (s : State) : (driveDc m s).offset = s.offset := rfl
@[simp] theorem driveDc_cfg (m : DcMode) (s : State) : (driveDc m s).cfg = s.cfg := rfl
@[simp] theorem driveDc_params (m : DcMode) (s : State) : (driveDc m s).params = s.params := rfl
@[simp] theorem driveDc_periph (m : DcMode) (s : State) : (driveDc m s).periph = s.periph := rfl
@[simp] theorem driveDc_trace (m : DcMode) (s : State) : (driveDc m s).trace = s.trace ++ [.dc m] := rfl
@[simp] theorem driveDc_results (m : DcMode) (s : State) : (driveDc m s).results = s.results := rfl
@[simp] theorem driveDc_inputs (m : DcMode) (s : State) : (driveDc m s).inputs = s.inputs := rfl
@[simp] theorem driveDc_link (m : DcMode) (s : State) : (driveDc m s).link = s.link := rfl
@[simp] theorem driveDc_draws (m : DcMode) (s : State) : (driveDc m s).draws = s.draws := rfl

@[simp] theorem driveCs_cs (a : ChipSelect) (s : State) : (driveCs a s).cs = a := rfl
@[simp] theorem driveCs_dc (a : ChipSelect) (s : State) : (driveCs a s).dc = s.dc := rfl
@[simp] theorem driveCs_rst (a : ChipSelect) (s : State) : (driveCs a s).rst = s.rst := rfl
@[simp] theorem driveCs_fsm (a : ChipSelect) (s : State) : (driveCs a s).fsm = s.fsm := rfl
@[simp] theorem driveCs_orient (a : ChipSelect) (s : State) : (driveCs a s).orient = s.orient := rfl
@[simp] theorem driveCs_offset (a : ChipSelect) (s : State) : (driveCs a s).offset = s.offset := rfl
@[simp] theorem driveCs_cfg (a : ChipSelect) (s : State) : (driveCs a s).cfg = s.cfg := rfl
@[simp] theorem driveCs_params (a : ChipSelect) (s : State) : (driveCs a s).params = s.params := rfl
@[simp] theorem driveCs_periph (a : ChipSelect) (s : State) : (driveCs a s).periph = s.periph := rfl
@[simp] theorem driveCs_trace (a : ChipSelect) (s : State) : (driveCs a s).trace = s.trace ++ [.cs a] := rfl
@[simp] theorem driveCs_results (a : ChipSelect) (s : State) : (driveCs a s).results = s.results := rfl
@[simp] theorem driveCs_inputs (a : ChipSelect) (s : State) : (driveCs a s).inputs = s.inputs := rfl
@[simp] theorem driveCs_link (a : ChipSelect) (s : State) : (driveCs a s).link = s.link := rfl
@[simp] theorem driveCs_draws (a : ChipSelect) (s : State) : (driveCs a s).draws = s.draws := rfl

@[simp] theorem delay_cs (p : TimingParam) (s : State) : (delay p s).cs = s.cs := rfl
@[simp] theorem delay_dc (p : TimingParam) (s : State) : (delay p s).dc = s.dc := rfl
@[simp] theorem delay_rst (p : TimingParam) (s : State) : (delay p s).rst = s.rst := rfl
@[simp] theorem delay_fsm (p : TimingParam) (s : State) : (delay p s).fsm = s.fsm := rfl
@[simp] theorem delay_orient (p : TimingParam) (s : State) : (delay p s).orient = s.orient := rfl
@[simp] theorem delay_offset (p : TimingParam) (s : State) : (delay p s).offset = s.offset := rfl
@[simp] theorem delay_cfg (p : TimingParam) (s : State) : (delay p s).cfg = s.cfg := rfl
@[simp] theorem delay_params (p : TimingParam) (s : State) : (delay p s).params = s.params := rfl
@[simp] theorem delay_periph (p : TimingParam) (s : State) : (delay p s).periph = s.periph.onWait s.params p := rfl
@[simp] theorem delay_trace (p : TimingParam) (s : State) : (delay p s).trace = s.trace ++ [.wait p] := rfl
@[simp] theorem delay_results (p : TimingParam) (s : State) : (delay p s).results = s.results := rfl
@[simp] theorem delay_inputs (p : TimingParam) (s : State) : (delay p s).inputs = s.inputs := rfl
@[simp] theorem delay_link (p : TimingParam) (s : State) : (delay p s).link = s.link := rfl
@[simp] theorem delay_draws (p : TimingParam) (s : State) : (delay p s).draws = s.draws := rfl

@[simp] theorem setFsm_cs (f : Fsm) (s : State) : (setFsm f s).cs = s.cs := rfl
@[simp] theorem setFsm_dc (f : Fsm) (s : State) : (setFsm f s).dc = s.dc := rfl
@[simp] theorem setFsm_rst (f : Fsm) (s : State) : (setFsm f s).rst = s.rst := rfl
@[simp] theorem setFsm_fsm (f : Fsm) (s : State) : (setFsm f s).fsm = f := rfl
@[simp] theorem setFsm_orient (f : Fsm) (s : State) : (setFsm f s).orient = s.orient := rfl
@[simp] theorem setFsm_offset (f : Fsm) (s : State) : (setFsm f s).offset = s.offset := rfl
@[simp] theorem setFsm_cfg (f : Fsm) (s : State) : (setFsm f s).cfg = s.cfg := rfl
@[simp] theorem setFsm_params (f : Fsm) (s : State) : (setFsm f s).params = s.params := rfl
@[simp] theorem setFsm_periph (f : Fsm) (s : State) : (setFsm f s).periph = s.periph := rfl
@[simp] theorem setFsm_trace (f : Fsm) (s : State) : (setFsm f s).trace = s.trace := rfl
@[simp] theorem setFsm_results (f : Fsm) (s : State) : (setFsm f s).results = s.results := rfl
@[simp] theorem setFsm_inputs (f : Fsm) (s : State) : (setFsm f s).inputs = s.inputs := rfl
@[simp] theorem setFsm_link (f : Fsm) (s : State) : (setFsm f s).link = s.link := rfl
@[simp] theorem setFsm_draws (f : Fsm) (s : State) : (setFsm f s).draws = s.draws := rfl

@[simp] theorem setOrient_cs (o : Orientation) (s : State) : (setOrient o s).cs = s.cs := rfl
@[simp] theorem setOrient_dc (o : Orientation) (s : State) : (setOrient o s).dc = s.dc := rfl
@[simp] theorem setOrient_rst (o : Orientation) (s : State) : (setOrient o s).rst = s.rst := rfl
@[simp] theorem setOrient_fsm (o : Orientation) (s : State) : (setOrient o s).fsm = s.fsm := rfl
@[simp] theorem setOrient_orient (o : Orientation) (s : State) : (setOrient o s).orient = o := rfl
@[simp] theorem setOrient_offset (o : Orientation) (s : State) : (setOrient o s).offset = s.offset := rfl
@[simp] theorem setOrient_cfg (o : Orientation) (s : State) : (setOrient o s).cfg = s.cfg := rfl
@[simp] theorem setOrient_params (o : Orientation) (s : State) : (setOrient o s).params = s.params := rfl
@[simp] theorem setOrient_periph (o : Orientation) (s : State) : (setOrient o s).periph = s.periph := rfl
@[simp] theorem setOrient_trace (o : Orientation) (s : State) : (setOrient o s).trace = s.trace := rfl
@[simp] theorem setOrient_results (o : Orientation) (s : State) : (setOrient o s).results = s.results := rfl
@[simp] theorem setOrient_inputs (o : Orientation) (s : State) : (setOrient o s).inputs = s.inputs := rfl
@[simp] theorem setOrient_link (o : Orientation) (s : State) : (setOrient o s).link = s.link := rfl
@[simp] theorem setOrient_draws (o : Orientation) (s : State) : (setOrient o s).draws = s.draws := rfl

@[simp] theorem writeOffset_cs (dx dy : Half) (s : State) : (writeOffset dx dy s).cs = s.cs := rfl
@[simp] theorem writeOffset_dc (dx dy : Half) (s : State) : (writeOffset dx dy s).dc = s.dc := rfl
@[simp] theorem writeOffset_rst (dx dy : Half) (s : State) : (writeOffset dx dy s).rst = s.rst := rfl
@[simp] theorem writeOffset_fsm (dx dy : Half) (s : State) : (writeOffset dx dy s).fsm = s.fsm := rfl
@[simp] theorem writeOffset_orient (dx dy : Half) (s : State) : (writeOffset dx dy s).orient = s.orient := rfl
@[simp] theorem writeOffset_offset (dx dy : Half) (s : State) : (writeOffset dx dy s).offset = { dx := dx, dy := dy } := rfl
@[simp] theorem writeOffset_cfg (dx dy : Half) (s : State) : (writeOffset dx dy s).cfg = s.cfg := rfl
@[simp] theorem writeOffset_params (dx dy : Half) (s : State) : (writeOffset dx dy s).params = s.params := rfl
@[simp] theorem writeOffset_periph (dx dy : Half) (s : State) : (writeOffset dx dy s).periph = s.periph := rfl
@[simp] theorem writeOffset_trace (dx dy : Half) (s : State) : (writeOffset dx dy s).trace = s.trace := rfl
@[simp] theorem writeOffset_results (dx dy : Half) (s : State) : (writeOffset dx dy s).results = s.results := rfl
@[simp] theorem writeOffset_inputs (dx dy : Half) (s : State) : (writeOffset dx dy s).inputs = s.inputs := rfl
@[simp] theorem writeOffset_link (dx dy : Half) (s : State) : (writeOffset dx dy s).link = s.link := rfl
@[simp] theorem writeOffset_draws (dx dy : Half) (s : State) : (writeOffset dx dy s).draws = s.draws := rfl

@[simp] theorem consumeDraw_cs (s : State) : (consumeDraw s).cs = s.cs := rfl
@[simp] theorem consumeDraw_dc (s : State) : (consumeDraw s).dc = s.dc := rfl
@[simp] theorem consumeDraw_rst (s : State) : (consumeDraw s).rst = s.rst := rfl
@[simp] theorem consumeDraw_fsm (s : State) : (consumeDraw s).fsm = s.fsm := rfl
@[simp] theorem consumeDraw_orient (s : State) : (consumeDraw s).orient = s.orient := rfl
@[simp] theorem consumeDraw_offset (s : State) : (consumeDraw s).offset = s.offset := rfl
@[simp] theorem consumeDraw_cfg (s : State) : (consumeDraw s).cfg = s.cfg := rfl
@[simp] theorem consumeDraw_params (s : State) : (consumeDraw s).params = s.params := rfl
@[simp] theorem consumeDraw_periph (s : State) : (consumeDraw s).periph = s.periph := rfl
@[simp] theorem consumeDraw_trace (s : State) : (consumeDraw s).trace = s.trace := rfl
@[simp] theorem consumeDraw_results (s : State) : (consumeDraw s).results = s.results := rfl
@[simp] theorem consumeDraw_inputs (s : State) : (consumeDraw s).inputs = s.inputs := rfl
@[simp] theorem consumeDraw_link (s : State) : (consumeDraw s).link = s.link.tail := rfl
@[simp] theorem consumeDraw_draws (s : State) : (consumeDraw s).draws = s.draws + 1 := rfl

@[simp] theorem present_cs (x : Input) (s : State) : (present x s).cs = s.cs := rfl
@[simp] theorem present_dc (x : Input) (s : State) : (present x s).dc = s.dc := rfl
@[simp] theorem present_rst (x : Input) (s : State) : (present x s).rst = s.rst := rfl
@[simp] theorem present_fsm (x : Input) (s : State) : (present x s).fsm = s.fsm := rfl
@[simp] theorem present_orient (x : Input) (s : State) : (present x s).orient = s.orient := rfl
@[simp] theorem present_offset (x : Input) (s : State) : (present x s).offset = s.offset := rfl
@[simp] theorem present_cfg (x : Input) (s : State) : (present x s).cfg = s.cfg := rfl
@[simp] theorem present_params (x : Input) (s : State) : (present x s).params = s.params := rfl
@[simp] theorem present_periph (x : Input) (s : State) : (present x s).periph = s.periph := rfl
@[simp] theorem present_trace (x : Input) (s : State) : (present x s).trace = s.trace := rfl
@[simp] theorem present_results (x : Input) (s : State) : (present x s).results = s.results := rfl
@[simp] theorem present_inputs (x : Input) (s : State) : (present x s).inputs = x :: s.inputs := rfl
@[simp] theorem present_link (x : Input) (s : State) : (present x s).link = s.link := rfl
@[simp] theorem present_draws (x : Input) (s : State) : (present x s).draws = s.draws := rfl

@[simp] theorem respond_cs (r : State × Result) : (respond r).cs = r.1.cs := rfl
@[simp] theorem respond_dc (r : State × Result) : (respond r).dc = r.1.dc := rfl
@[simp] theorem respond_rst (r : State × Result) : (respond r).rst = r.1.rst := rfl
@[simp] theorem respond_fsm (r : State × Result) : (respond r).fsm = r.1.fsm := rfl
@[simp] theorem respond_orient (r : State × Result) : (respond r).orient = r.1.orient := rfl
@[simp] theorem respond_offset (r : State × Result) : (respond r).offset = r.1.offset := rfl
@[simp] theorem respond_cfg (r : State × Result) : (respond r).cfg = r.1.cfg := rfl
@[simp] theorem respond_params (r : State × Result) : (respond r).params = r.1.params := rfl
@[simp] theorem respond_periph (r : State × Result) : (respond r).periph = r.1.periph := rfl
@[simp] theorem respond_trace (r : State × Result) : (respond r).trace = r.1.trace := rfl
@[simp] theorem respond_results (r : State × Result) : (respond r).results = r.1.results ++ [r.2] := rfl
@[simp] theorem respond_inputs (r : State × Result) : (respond r).inputs = r.1.inputs := rfl
@[simp] theorem respond_link (r : State × Result) : (respond r).link = r.1.link := rfl
@[simp] theorem respond_draws (r : State × Result) : (respond r).draws = r.1.draws := rfl

@[simp] theorem sent_cs (s : State) (es : List Event) (m : DcMode) (n : Nat) : (s.sent es m n).cs = .released := rfl
@[simp] theorem sent_dc (s : State) (es : List Event) (m : DcMode) (n : Nat) : (s.sent es m n).dc = m := rfl
@[simp] theorem sent_rst (s : State) (es : List Event) (m : DcMode) (n : Nat) : (s.sent es m n).rst = s.rst := rfl
@[simp] theorem sent_fsm (s : State) (es : List Event) (m : DcMode) (n : Nat) : (s.sent es m n).fsm = s.fsm := rfl
@[simp] theorem sent_orient (s : State) (es : List Event) (m : DcMode) (n : Nat) : (s.sent es m n).orient = s.orient := rfl
@[simp] theorem sent_offset (s : State) (es : List Event) (m : DcMode) (n : Nat) : (s.sent es m n).offset = s.offset := rfl
@[simp] theorem sent_cfg (s : State) (es : List Event) (m : DcMode) (n : Nat) : (s.sent es m n).cfg = s.cfg := rfl
@[simp] theorem sent_params (s : State) (es : List Event) (m : DcMode) (n : Nat) : (s.sent es m n).params = s.params := rfl
@[simp] theorem sent_periph (s : State) (es : List Event) (m : DcMode) (n : Nat) : (s.sent es m n).periph = s.periph.replay s.params s.dc es := rfl
@[simp] theorem sent_trace (s : State) (es : List Event) (m : DcMode) (n : Nat) : (s.sent es m n).trace = s.trace ++ es := rfl
@[simp] theorem sent_results (s : State) (es : List Event) (m : DcMode) (n : Nat) : (s.sent es m n).results = s.results := rfl
@[simp] theorem sent_inputs (s : State) (es : List Event) (m : DcMode) (n : Nat) : (s.sent es m n).inputs = s.inputs := rfl
@[simp] theorem sent_link (s : State) (es : List Event) (m : DcMode) (n : Nat) : (s.sent es m n).link = s.link.drop n := rfl
@[simp] theorem sent_draws (s : State) (es : List Event) (m : DcMode) (n : Nat) : (s.sent es m n).draws = s.draws + n := rfl

/-- All that `transmit` does: the bytes are appended to the trace and the controller receives them in order. -/
theorem transmit_eq (bs : List Byte) (s : State) :
    transmit bs s = { s with trace := s.trace ++ bs.map .tx,
                             periph := bs.foldl (fun p b => p.receive s.params s.dc b) s.periph } := by
  induction bs generalizing s with
  | nil => simp [transmit]
  | cons b bs ih =>
    have h : transmit (b :: bs) s = transmit bs (emit (.tx b) s) := rfl
    rw [h, ih]
    simp [emit, Periph.onEvent]

@[simp] theorem transmit_cs (bs : List Byte) (s : State) : (transmit bs s).cs = s.cs := by
  rw [transmit_eq]
@[simp] theorem transmit_dc (bs : List Byte) (s : State) : (transmit bs s).dc = s.dc := by
  rw [transmit_eq]
@[simp] theorem transmit_rst (bs : List Byte) (s : State) : (transmit bs s).rst = s.rst := by
  rw [transmit_eq]
@[simp] theorem transmit_fsm (bs : List Byte) (s : State) : (transmit bs s).fsm = s.fsm := by
  rw [transmit_eq]
@[simp] theorem transmit_orient (bs : List Byte) (s : State) : (transmit bs s).orient = s.orient := by
  rw [transmit_eq]
@[simp] theorem transmit_offset (bs : List Byte) (s : State) : (transmit bs s).offset = s.offset := by
  rw [transmit_eq]
@[simp] theorem transmit_cfg (bs : List Byte) (s : State) : (transmit bs s).cfg = s.cfg := by
  rw [transmit_eq]
@[simp] theorem transmit_params (bs : List Byte) (s : State) : (transmit bs s).params = s.params := by
  rw [transmit_eq]
@[simp] theorem transmit_results (bs : List Byte) (s : State) : (transmit bs s).results = s.results := by
  rw [transmit_eq]
@[simp] theorem transmit_inputs (bs : List Byte) (s : State) : (transmit bs s).inputs = s.inputs := by
  rw [transmit_eq]
@[simp] theorem transmit_link (bs : List Byte) (s : State) : (transmit bs s).link = s.link := by
  rw [transmit_eq]
@[simp] theorem transmit_draws (bs : List Byte) (s : State) : (transmit bs s).draws = s.draws := by
  rw [transmit_eq]
@[simp] theorem transmit_trace (bs : List Byte) (s : State) : (transmit bs s).trace = s.trace ++ bs.map .tx := by
  rw [transmit_eq]

@[simp] theorem transmit_periph (bs : List Byte) (s : State) :
    (transmit bs s).periph = bs.foldl (fun p b => p.receive s.params s.dc b) s.periph := by
  rw [transmit_eq]

end Sys2Proof.Machine
end

