-- ==== Sys2Proof/Laws/Ops.lean ====
section
/-! SUPPORT. One lemma per shared operation: all that it does, in closed form, with the answers of the link as the only
case split. -/

namespace Sys2Proof.Machine

/-! ### Sequencing -/

theorem andThen_ok {f g : Op} {s t : State} (h : f s = (t, .ok)) : andThen f g s = g t := by
  simp [andThen, h]

theorem andThen_err {f g : Op} {s t : State} {k : ErrKind} (h : f s = (t, .err k)) : andThen f g s = (t, .err k) := by
  simp [andThen, h]

theorem runLines_cons_ok {f : Op} {fs : List Op} {s t : State} (h : f s = (t, .ok)) :
    runLines (f :: fs) s = runLines fs t := andThen_ok h

theorem runLines_cons_err {f : Op} {fs : List Op} {s t : State} {k : ErrKind} (h : f s = (t, .err k)) :
    runLines (f :: fs) s = (t, .err k) := andThen_err h

@[simp] theorem line_apply (f : State → State) (s : State) : line f s = (f s, .ok) := rfl
@[simp] theorem raise_apply (k : ErrKind) (s : State) : raise k s = (s, .err k) := rfl
@[simp] theorem runLines_nil (s : State) : runLines [] s = (s, .ok) := rfl

theorem whenReady_ready {f : Op} {s : State} (h : s.fsm = .ready) : whenReady f s = f s := if_pos h

theorem whenReady_early {f : Op} {s : State} (h : s.fsm ≠ .ready) : whenReady f s = (s, .err .sequenceError) := if_neg h

/-! ### The link -/

theorem outcome_ok {n : Nat} {s : State} (h : s.link.head? = some .ok) : outcome n s = .ok := by
  cases hl : s.link with
  | nil => simp [hl] at h
  | cons o l =>
    have : o = .ok := by simpa [hl] using h
    simp [outcome, hl, this, clampOutcome]

theorem outcome_fault {n k : Nat} {s : State} (h : s.link.head? = some (.fault k)) (hk : k ≤ n) :
    outcome n s = .fault k := by
  cases hl : s.link with
  | nil => simp [hl] at h
  | cons o l =>
    have : o = .fault k := by simpa [hl] using h
    simp [outcome, hl, this, clampOutcome, hk]

theorem LinkOk.head {n : Nat} {s : State} (h : LinkOk (n + 1) s) : s.link.head? = some .ok := by
  cases hl : s.link with
  | nil => simp [LinkOk, hl, List.replicate_succ] at h
  | cons o l =>
    have : o = .ok := by
      have := h
      simp only [LinkOk, hl, List.take_succ_cons, List.replicate_succ, List.cons.injEq] at this
      exact this.1
    simp [this]

/-- The premise on the link splits: what is left after `a` transfers. -/
theorem LinkOk.sent {a b : Nat} {s : State} (h : LinkOk (a + b) s) (es : List Event) (m : DcMode) :
    LinkOk b (s.sent es m a) := by
  have h2 := congrArg (List.drop a) h
  rw [List.drop_take, List.drop_replicate] at h2
  simpa [LinkOk] using h2

/-- The premise on the link holds of any smaller number of transfers. -/
theorem LinkOk.first {a b : Nat} {s : State} (h : LinkOk (a + b) s) : LinkOk a s := by
  have h2 := congrArg (List.take a) h
  rw [List.take_take, List.take_replicate] at h2
  simpa [LinkOk] using h2

/-! ### Traces joined -/

theorem sent_sent (s : State) (es fs : List Event) (m m' : DcMode) (a b : Nat)
    (hm : es.foldl modeAfter s.dc = m) : (s.sent es m a).sent fs m' b = s.sent (es ++ fs) m' (a + b) := by
  subst hm
  simp [State.sent, replay_append, List.append_assoc, Nat.add_assoc]

/-! ### Bus Transport -/

/-- The state a BUSWRITE leaves that sent the bytes `bs` (before a fault reaches the controller). -/
def afterTransfer (bs : List Byte) (s : State) : State := s.sent (transactionEvents bs) s.dc 1

/-- All that BUSWRITE does. -/
theorem busWrite_eq (bs : List Byte) (s : State) :
    busWrite bs s =
      transferEnd (outcome bs.length s) (afterTransfer (bs.take (sentOf bs.length (outcome bs.length s))) s) := by
  unfold busWrite
  simp only [driveCs, emit, transmit_eq, consumeDraw, afterTransfer, State.sent, replay_transaction, Periph.onEvent]
  simp [transactionEvents]

theorem busWrite_ok {bs : List Byte} {s : State} (h : s.link.head? = some .ok) :
    busWrite bs s = (s.sent (transactionEvents bs) s.dc 1, .ok) := by
  rw [busWrite_eq, outcome_ok h]
  simp [transferEnd, sentOf, afterTransfer]

theorem busWrite_fault {bs : List Byte} {s : State} {k : Nat} (h : s.link.head? = some (.fault k))
    (hk : k ≤ bs.length) :
    busWrite bs s =
      ({ s.sent (transactionEvents (bs.take k)) s.dc 1 with
          periph := (s.sent (transactionEvents (bs.take k)) s.dc 1).periph.lose }, .err .busFault) := by
  rw [busWrite_eq, outcome_fault h hk]
  rfl

/-! ### Framer -/

theorem driveDc_eq (m : DcMode) (s : State) :
    driveDc m s = { s with dc := m, trace := s.trace ++ [.dc m] } := rfl

theorem busWrite_driveDc_ok {bs : List Byte} {s : State} {m : DcMode} (h : s.link.head? = some .ok) :
    busWrite bs (driveDc m s) = (s.sent (.dc m :: transactionEvents bs) m 1, .ok) := by
  rw [busWrite_ok (by simpa using h), driveDc_eq]
  simp [State.sent, Periph.replay, Periph.onEvent, modeAfter]

theorem hwReset_eq (s : State) :
    hwReset s =
      ({ s with rst := .high, trace := s.trace ++ resetPulse,
                periph := s.periph.replay s.params s.dc resetPulse }, .ok) := by
  simp [hwReset, line, delay, driveRst, emit, resetPulse, Periph.replay, modeAfter]

theorem sendPix_ok {bs : List Byte} {s : State} (h : s.link.head? = some .ok) :
    sendPix bs s = (s.sent (pixelEvents bs) .D 1, .ok) := busWrite_driveDc_ok h

/-- A command without arguments: one transfer. -/
theorem sendCmd_nil_ok {op : Byte} {s : State} (h : s.link.head? = some .ok) :
    sendCmd op [] s = (s.sent (commandEvents op []) .C 1, .ok) := by
  unfold sendCmd
  rw [andThen_ok (f := fun s => busWrite [op] (driveDc .C s)) (busWrite_driveDc_ok h)]
  simp [commandEvents]

/-- A command with arguments: two transfers. -/
theorem sendCmd_args_ok {op : Byte} {args : List Byte} {s : State} (ha : args ≠ []) (h : LinkOk 2 s) :
    sendCmd op args s = (s.sent (commandEvents op args) .D 2, .ok) := by
  have h1 : LinkOk (1 + 1) s := h
  unfold sendCmd
  rw [andThen_ok (f := fun s => busWrite [op] (driveDc .C s)) (busWrite_driveDc_ok h1.head), if_neg ha,
    busWrite_driveDc_ok (h1.sent _ _).head, sent_sent _ _ _ _ _ _ _ (by simp [modeAfter, modeAfter_transaction])]
  simp [commandEvents, ha]

theorem delay_eq (p : TimingParam) (s : State) (h : s.cs = .released) :
    delay p s = s.sent [.wait p] s.dc 0 := by
  simp [delay, emit, State.sent, Periph.replay, h]

end Sys2Proof.Machine
end

