-- ==== Sys2Proof/Laws/PerInstr.lean ====
section
/-! SUPPORT. A statement about every instruction as syntax, one lemma per constructor: the encoder spells exactly the
well-formed operations that are not internal (spec/30_encoding.md R66, R68). -/

namespace Sys2Proof.Laws.Spelled

/-- The encoder gives `i` a request or a frame exactly where `i` is well-formed and not internal. -/
def Statement (i : Instr) : Prop :=
  ∀ q : Params, (encode q i).isSome = (i.wf q && !i.internal)

theorem reset : Statement .reset := fun _ => rfl
theorem initialise : Statement .initialise := fun _ => rfl
theorem setOrientation (o : Orientation) : Statement (.setOrientation o) := fun _ => rfl
theorem setOffset (dx dy : Half) : Statement (.setOffset dx dy) := fun _ => rfl
theorem setWindow (x0 y0 x1 y1 : Half) : Statement (.setWindow x0 y0 x1 y1) := fun _ => rfl
theorem writePixels (bytes : List Byte) : Statement (.writePixels bytes) := fun _ => rfl
theorem clear (color : Half) : Statement (.clear color) := fun _ => rfl
theorem draw (x y roww : Half) (bytes : List Byte) : Statement (.draw x y roww bytes) := fun _ => rfl
theorem reservedHost (r : BitVec 3) : Statement (.reservedHost r) := fun _ => rfl
theorem busWrite (bs : List Byte) : Statement (.busWrite bs) := fun _ => rfl
theorem hwReset : Statement .hwReset := fun _ => rfl
theorem sendCmd (op : Byte) (args : List Byte) : Statement (.sendCmd op args) := fun _ => rfl
theorem sendPix (bytes : List Byte) : Statement (.sendPix bytes) := fun _ => rfl
theorem swreset : Statement .swreset := fun _ => rfl
theorem slpout : Statement .slpout := fun _ => rfl
theorem invon : Statement .invon := fun _ => rfl
theorem dispon : Statement .dispon := fun _ => rfl
theorem caset (s e : Half) : Statement (.caset s e) := fun _ => rfl
theorem raset (s e : Half) : Statement (.raset s e) := fun _ => rfl
theorem ramwr : Statement .ramwr := fun _ => rfl
theorem madctl (arg : Byte) : Statement (.madctl arg) := fun q => by
  by_cases h : arg ∈ Machine.madctlBytes q <;> simp [encode, Instr.wf, Instr.internal, h]
theorem pixfmt (arg : Byte) : Statement (.pixfmt arg) := fun _ => rfl
theorem pixels (bytes : List Byte) : Statement (.pixels bytes) := fun _ => rfl

end Sys2Proof.Laws.Spelled
end

