-- ==== Sys2Proof/Laws/Steady.lean ====
section
/-! SUPPORT. What no operation ever breaks, said once for the shared operations and closed under sequencing: the
configuration and the pending inputs stay, the trace only grows by a well-framed piece, chip-select ends released, a
released reset line stays released, frame memory stays canonical, and none of it is known in `Unknown`. -/

namespace Sys2Proof.Machine

/-- From `s` to `t` nothing is broken. -/
structure Steady (s t : State) : Prop where
  cfg : t.cfg = s.cfg
  params : t.params = s.params
  inputs : t.inputs = s.inputs
  results : t.results = s.results
  cs : s.cs = .released → t.cs = .released
  rst : s.rst = .high → t.rst = .high
  fm : s.periph.fm.wf → t.periph.fm.wf
  forgotten : Forgotten s → Forgotten t
  trace : ∃ es, t.trace = s.trace ++ es ∧ WellFramed es

theorem readTrace_append (p : LinePhase) (es fs : List Event) :
    readTrace p (es ++ fs) = (readTrace p es).bind fun p' => readTrace p' fs := by
  induction es generalizing p with
  | nil => rfl
  | cons e es ih =>
    simp only [List.cons_append, readTrace]
    cases readEvent p e with
    | none => rfl
    | some p' => exact ih p'

theorem wellFramed_append {es fs : List Event} (he : WellFramed es) (hf : WellFramed fs) : WellFramed (es ++ fs) := by
  simp only [WellFramed] at he hf ⊢
  rw [readTrace_append, he, Option.bind_some, hf]

theorem wellFramed_data (bs : List Byte) : WellFramed (.dc .D :: transactionEvents bs) := by
  have h : ∀ sent, readTrace (.selected .D sent) (bs.map .tx ++ [.cs .released]) = some .outside := by
    induction bs with
    | nil => intro sent; cases sent <;> rfl
    | cons b bs ih => intro sent; cases sent <;> exact ih true
  exact h false

theorem wellFramed_command (bs : List Byte) (h : bs.length ≤ 1) : WellFramed (.dc .C :: transactionEvents bs) := by
  match bs, h with
  | [], _ => rfl
  | [b], _ => rfl

theorem Steady.refl (s : State) : Steady s s :=
  { cfg := rfl, params := rfl, inputs := rfl, results := rfl, cs := id, rst := id, fm := id,
    forgotten := id, trace := ⟨[], by simp, rfl⟩ }

theorem Steady.trans {s t u : State} (h : Steady s t) (g : Steady t u) : Steady s u := by
  obtain ⟨es, he, hw⟩ := h.trace
  obtain ⟨fs, hf, hv⟩ := g.trace
  exact
    { cfg := g.cfg.trans h.cfg, params := g.params.trans h.params, inputs := g.inputs.trans h.inputs,
      results := g.results.trans h.results, cs := fun x => g.cs (h.cs x), rst := fun x => g.rst (h.rst x),
      fm := fun x => g.fm (h.fm x),
      forgotten := fun x => g.forgotten (h.forgotten x), trace := ⟨es ++ fs, by rw [hf, he, List.append_assoc], wellFramed_append hw hv⟩ }

/-- An operation that breaks nothing from any state. -/
abbrev IsSteady (f : Op) : Prop := ∀ s, Steady s (f s).1

theorem steady_andThen {f g : Op} (hf : IsSteady f) (hg : IsSteady g) : IsSteady (andThen f g) := by
  intro s
  have h := hf s
  unfold andThen
  cases hr : f s with
  | mk t r =>
    rw [hr] at h
    cases r with
    | ok => exact h.trans (hg t)
    | err k => exact h

theorem steady_line {f : State → State} (hf : ∀ s, Steady s (f s)) : IsSteady (line f) := hf

theorem steady_runLines {fs : List Op} (h : ∀ f ∈ fs, IsSteady f) : IsSteady (runLines fs) := by
  induction fs with
  | nil => exact Steady.refl
  | cons f fs ih =>
    exact steady_andThen (h f (by simp)) (ih fun g hg => h g (by simp [hg]))

theorem steady_raise (k : ErrKind) : IsSteady (raise k) := Steady.refl

theorem steady_whenReady {f : Op} (h : IsSteady f) : IsSteady (whenReady f) := by
  intro s
  unfold whenReady
  split_ifs
  · exact h s
  · exact Steady.refl s

/-- Updates of the registers no other part of `Steady` looks at. -/
theorem steady_setFsm (x : Fsm) (s : State) : Steady s (setFsm x s) := { Steady.refl s with }

theorem steady_setOrient (o : Orientation) (s : State) : Steady s (setOrient o s) := { Steady.refl s with }

theorem steady_writeOffset (dx dy : Half) (s : State) : Steady s (writeOffset dx dy s) := { Steady.refl s with }

theorem steady_delay (p : TimingParam) (s : State) : Steady s (delay p s) :=
  { Steady.refl s with
    fm := fun h => onEvent_keeps kept_wf s.params s.dc s.periph (.wait p) h
    forgotten := fun h => onEvent_keeps kept_forgotten s.params s.dc s.periph (.wait p) h
    trace := ⟨[.wait p], rfl, rfl⟩ }

theorem steady_hwReset : IsSteady hwReset := by
  intro s
  rw [hwReset_eq]
  exact { Steady.refl s with
          rst := fun _ => rfl
          fm := fun h => replay_wf _ _ _ _ h
          forgotten := fun h => replay_forgotten _ _ _ _ h
          trace := ⟨resetPulse, rfl, rfl⟩ }

/-- A drive of `dc` and the transfer after it: the only way a transfer is made. -/
theorem steady_transfer (m : DcMode) (bs : List Byte) (h : ∀ k, WellFramed (.dc m :: transactionEvents (bs.take k))) :
    IsSteady fun s => busWrite bs (driveDc m s) := by
  intro s
  have key : ∀ cs : List Byte, WellFramed (.dc m :: transactionEvents cs) →
      Steady s (afterTransfer cs (driveDc m s)) := by
    intro cs hc
    exact { Steady.refl s with
            cs := fun _ => rfl
            fm := fun hw => replay_wf _ _ _ _ hw
            forgotten := fun hf => replay_forgotten _ _ _ _ hf
            trace := ⟨.dc m :: transactionEvents cs, by simp [afterTransfer], hc⟩ }
  change Steady s (busWrite bs (driveDc m s)).1
  rw [busWrite_eq]
  unfold transferEnd
  split
  · exact key _ (h _)
  · exact { key _ (h _) with fm := fun _ => empty_wf, forgotten := fun _ _ => rfl }

theorem steady_sendPix (bs : List Byte) : IsSteady (sendPix bs) :=
  steady_transfer .D bs fun _ => wellFramed_data _

theorem steady_sendCmd (op : Byte) (args : List Byte) : IsSteady (sendCmd op args) := by
  refine steady_andThen (steady_transfer .C [op] fun k => wellFramed_command _ ?_) ?_
  · rw [List.length_take]
    simp
  · split_ifs
    · exact steady_line Steady.refl
    · exact steady_transfer .D args fun _ => wellFramed_data _

theorem steady_programWindow (w : Window) : IsSteady (programWindow w) := by
  intro s
  refine steady_runLines ?_ s
  intro f hf
  simp only [List.mem_cons, List.not_mem_nil, or_false] at hf
  rcases hf with rfl | rfl | rfl <;> exact steady_sendCmd _ _

theorem steady_setWindowOp (w : Window) : IsSteady (setWindowOp w) :=
  steady_whenReady fun s => by
    split_ifs
    · exact steady_programWindow _ s
    · exact steady_raise _ s

end Sys2Proof.Machine
end

