-- ==== Sys2Proof/Laws/Traffic.lean ====
section
/-! SUPPORT. All that an operation made of transfers can do, said once: either its whole trace goes out, or a transfer
fails and a piece of that trace has gone out, closed by the CS(0) of the failed transaction; for the Framer's operations,
for the window program and for SET_WINDOW, and closed under sequencing. -/

namespace Sys2Proof.Machine

/-- The controller after a transfer that ended in a fault (spec/20_memory.md R52 a). -/
def cutOff (s : State) : State := { s with periph := s.periph.lose }

/-- From `s`, `f` sends `es` in `n` transfers and ends with `dc` at `m`, or fails on the way. -/
def Traffics (f : Op) (es : List Event) (m : DcMode) (n : Nat) (s : State) : Prop :=
  f s = (s.sent es m n, .ok) ∨
  ∃ pre m' k, pre <+: es ∧ f s = (cutOff (s.sent (pre ++ [.cs .released]) m' k), .err .busFault)

/-- What a BUSWRITE can do. -/
theorem busWrite_cases (bs : List Byte) (s : State) :
    busWrite bs s = (s.sent (transactionEvents bs) s.dc 1, .ok) ∨
    ∃ k, k ≤ bs.length ∧
      busWrite bs s = (cutOff (s.sent (transactionEvents (bs.take k)) s.dc 1), .err .busFault) := by
  rw [busWrite_eq]
  unfold outcome
  cases s.link.headD (Config.linkOutcome s.draws) with
  | ok => exact .inl (by simp [clampOutcome, transferEnd, sentOf, afterTransfer])
  | fault k => exact .inr ⟨min k bs.length, Nat.min_le_right _ _, rfl⟩

/-- A drive of `dc` and the transfer after it. -/
theorem traffics_transfer (m : DcMode) (bs : List Byte) (s : State) :
    Traffics (fun s => busWrite bs (driveDc m s)) (.dc m :: transactionEvents bs) m 1 s := by
  have key : ∀ cs : List Byte, (driveDc m s).sent (transactionEvents cs) (driveDc m s).dc 1 =
      s.sent (.dc m :: transactionEvents cs) m 1 := by
    intro cs
    simp [State.sent, driveDc_eq, Periph.replay, modeAfter, Periph.onEvent]
  rcases busWrite_cases bs (driveDc m s) with h | ⟨k, -, h⟩
  · left
    change busWrite bs (driveDc m s) = _
    rw [h, key]
  · right
    refine ⟨.dc m :: .cs .asserted :: (bs.take k).map .tx, m, 1, ?_, ?_⟩
    · simp only [transactionEvents, List.cons_append, List.cons_prefix_cons, true_and]
      exact (List.IsPrefix.map _ (List.take_prefix k bs)).trans (List.prefix_append _ _)
    · change busWrite bs (driveDc m s) = _
      rw [h, key]
      rfl

theorem traffics_andThen {f g : Op} {es fs : List Event} {m m' : DcMode} {n n' : Nat} {s : State}
    (hm : es.foldl modeAfter s.dc = m) (hf : Traffics f es m n s) (hg : Traffics g fs m' n' (s.sent es m n)) :
    Traffics (andThen f g) (es ++ fs) m' (n + n') s := by
  rcases hf with h | ⟨pre, m₁, k, hp, h⟩
  · rcases hg with h' | ⟨pre, m₁, k, hp, h'⟩
    · left
      rw [andThen_ok h, h', sent_sent _ _ _ _ _ _ _ hm]
    · right
      refine ⟨es ++ pre, m₁, n + k, ?_, ?_⟩
      · obtain ⟨r, rfl⟩ := hp
        exact ⟨r, by simp⟩
      · rw [andThen_ok h, h', sent_sent _ _ _ _ _ _ _ hm, List.append_assoc]
  · right
    exact ⟨pre, m₁, k, hp.trans (List.prefix_append _ _), by rw [andThen_err h]⟩

theorem traffics_sendPix (bs : List Byte) (s : State) : Traffics (sendPix bs) (pixelEvents bs) .D 1 s :=
  traffics_transfer .D bs s

/-- `dc` after a command, and how many transfers it takes. -/
def modeOfArgs (args : List Byte) : DcMode := if args = [] then .C else .D
def transfersOf (args : List Byte) : Nat := if args = [] then 1 else 2

theorem traffics_sendCmd (op : Byte) (args : List Byte) (s : State) :
    Traffics (sendCmd op args) (commandEvents op args) (modeOfArgs args) (transfersOf args) s := by
  by_cases ha : args = []
  · subst ha
    rcases traffics_transfer .C [op] s with h | ⟨pre, m, k, hp, h⟩
    · left
      simp only [sendCmd, if_true]
      rw [andThen_ok (f := fun s => busWrite [op] (driveDc .C s)) h]
      simp [commandEvents, modeOfArgs, transfersOf]
    · right
      refine ⟨pre, m, k, by simpa [commandEvents] using hp, ?_⟩
      simp only [sendCmd]
      rw [andThen_err (f := fun s => busWrite [op] (driveDc .C s)) h]
  · have := traffics_andThen (by simp [modeAfter, modeAfter_transaction]) (traffics_transfer .C [op] s)
      (traffics_transfer .D args _)
    simpa [sendCmd, ha, commandEvents, modeOfArgs, transfersOf] using this

theorem modeAfter_sendCmd (m : DcMode) (op : Byte) (args : List Byte) :
    (commandEvents op args).foldl modeAfter m = modeOfArgs args := modeAfter_command m op args

theorem modeAfter_window (m : DcMode) (q : Params) (X0 Y0 X1 Y1 : Nat) :
    (windowEvents q X0 Y0 X1 Y1).foldl modeAfter m = .C := by
  simp [windowEvents, modeAfter_command]

theorem modeAfter_pixels (m : DcMode) (bs : List Byte) : (pixelEvents bs).foldl modeAfter m = .D := by
  simp [pixelEvents, modeAfter, modeAfter_transaction]

/-- One more line before the lines of a run. -/
theorem traffics_cons {f : Op} {gs : List Op} {es fs : List Event} {m m' : DcMode} {n n' : Nat} {s : State}
    (hm : es.foldl modeAfter s.dc = m) (hf : Traffics f es m n s)
    (hg : Traffics (runLines gs) fs m' n' (s.sent es m n)) :
    Traffics (runLines (f :: gs)) (es ++ fs) m' (n + n') s := traffics_andThen hm hf hg

/-- A run whose only line is `f`. -/
theorem traffics_last {f : Op} {es : List Event} {m : DcMode} {n : Nat} {s : State} (hf : Traffics f es m n s) :
    Traffics (runLines [f]) es m n s := by
  rcases hf with h | ⟨pre, m, k, hp, h⟩
  · exact .inl (runLines_cons_ok h)
  · exact .inr ⟨pre, m, k, hp, runLines_cons_err h⟩

theorem columnArgs_ne (w : Window) : columnArgs w ≠ [] := by simp [columnArgs, be16]
theorem rowArgs_ne (w : Window) : rowArgs w ≠ [] := by simp [rowArgs, be16]

theorem traffics_programWindow (w : Window) (s : State) :
    Traffics (programWindow w) (windowEvents s.params w.x0.toNat w.y0.toNat w.x1.toNat w.y1.toNat) .C 5 s := by
  have hc : transfersOf (columnArgs w) = 2 := if_neg (columnArgs_ne w)
  have hr : transfersOf (rowArgs w) = 2 := if_neg (rowArgs_ne w)
  have h := traffics_cons (modeAfter_sendCmd _ _ _) (traffics_sendCmd s.params.opc.caset (columnArgs w) s)
    (traffics_cons (modeAfter_sendCmd _ _ _) (traffics_sendCmd s.params.opc.raset (rowArgs w) _)
      (traffics_last (traffics_sendCmd s.params.opc.ramwr [] _)))
  rw [hc, hr, ← List.append_assoc] at h
  have e : programWindow w s =
      runLines [sendCmd s.params.opc.caset (columnArgs w), sendCmd s.params.opc.raset (rowArgs w),
        sendCmd s.params.opc.ramwr []] s := rfl
  unfold Traffics
  rw [e]
  exact h

/-! ### The window-address generator and the bitmap checks -/

theorem insidePanel_iff (c : PanelCfg) (w : Window) : insidePanel c w = true ↔ InPanel c w.x0 w.y0 w.x1 w.y1 := by
  simp [insidePanel, InPanel]

/-- All that SET_WINDOW can do in Ready to a window in the panel. -/
theorem traffics_setWindowOp {w : Window} {s : State} (hr : s.fsm = .ready)
    (hi : insidePanel s.cfg (relocate s.offset w) = true) :
    Traffics (setWindowOp w)
      (windowEvents s.params (relocate s.offset w).x0.toNat (relocate s.offset w).y0.toNat
        (relocate s.offset w).x1.toNat (relocate s.offset w).y1.toNat) .C 5 s := by
  have e : setWindowOp w s = programWindow (relocate s.offset w) s := by
    unfold setWindowOp
    rw [whenReady_ready hr, if_pos hi]
  unfold Traffics
  rw [e]
  exact traffics_programWindow _ s

/-- SET_WINDOW in Ready of a window outside the panel. -/
theorem setWindowOp_outside {w : Window} {s : State} (hr : s.fsm = .ready)
    (hi : ¬ insidePanel s.cfg (relocate s.offset w) = true) : setWindowOp w s = (s, .err .boundsError) := by
  unfold setWindowOp
  rw [whenReady_ready hr, if_neg hi]
  rfl

theorem bitmapShape_some {bytes : List Byte} {roww : Half} (h : WellShaped bytes roww) :
    bitmapShape bytes roww = some (bytes.length / 2, bytes.length / 2 / roww.toNat) := by
  obtain ⟨h1, h2, h3, h4⟩ := h
  unfold bitmapShape
  rw [if_neg h1, if_neg (by omega), if_neg h3, if_neg (by omega)]

theorem bitmapShape_none {bytes : List Byte} {roww : Half} (h : ¬ WellShaped bytes roww) :
    bitmapShape bytes roww = none := by
  unfold bitmapShape
  split_ifs <;> try rfl
  exact absurd ⟨by assumption, by omega, by assumption, by omega⟩ h

/-! ### A fault-free link -/

theorem programWindow_ok {w : Window} {s : State} (h : LinkOk 5 s) :
    programWindow w s = (s.sent (windowEvents s.params w.x0.toNat w.y0.toNat w.x1.toNat w.y1.toNat) .C 5, .ok) := by
  have hc := columnArgs_ne w
  have hr := rowArgs_ne w
  have h5 : LinkOk (2 + (2 + 1)) s := h
  unfold programWindow
  rw [runLines_cons_ok (sendCmd_args_ok hc h5.first)]
  have h3 := h5.sent (commandEvents s.params.opc.caset (columnArgs w)) .D
  rw [runLines_cons_ok (sendCmd_args_ok hr h3.first)]
  have h1 := h3.sent (commandEvents s.params.opc.raset (rowArgs w)) .D
  rw [runLines_cons_ok (sendCmd_nil_ok (LinkOk.head (n := 0) h1)),
    sent_sent _ _ _ _ _ _ _ (by rw [modeAfter_command, if_neg hr]),
    sent_sent _ _ _ _ _ _ _ (by rw [modeAfter_command, if_neg hc]), ← List.append_assoc]
  rfl

theorem setWindowOp_ok {w : Window} {s : State} (hr : s.fsm = .ready)
    (hi : insidePanel s.cfg (relocate s.offset w) = true) (h : LinkOk 5 s) :
    setWindowOp w s =
      (s.sent (windowEvents s.params (relocate s.offset w).x0.toNat (relocate s.offset w).y0.toNat
        (relocate s.offset w).x1.toNat (relocate s.offset w).y1.toNat) .C 5, .ok) := by
  unfold setWindowOp
  rw [whenReady_ready hr, if_pos hi, programWindow_ok h]

end Sys2Proof.Machine
end

