-- ==== Sys2Proof/Laws/Stream.lean ====
section
/-! SUPPORT. The window program and the pixel stream as the controller sees them: the write pointer runs through the
window in raster order, one cell per two bytes, and a stream of exactly the window's size fills it and nothing else
(spec/20_memory.md R48 to R50). -/

namespace Sys2Proof.Machine

/-- The `k`-th cell, in raster order, of a window whose first cell is `(xs, ys)` and which is `w` cells wide. -/
def rasterCell (xs ys : Half) (w k : Nat) : Half × Half :=
  (BitVec.ofNat 16 (xs.toNat + k % w), BitVec.ofNat 16 (ys.toNat + k / w))

theorem nextCell_raster {xs xe ys ye : Half} {w h : Nat} (hw : xs.toNat + w = xe.toNat + 1)
    (hh : ys.toNat + h = ye.toNat + 1) (k : Nat) (hk : k < w * h) :
    nextCell xs xe ye (rasterCell xs ys w k).1 (rasterCell xs ys w k).2 =
      if k + 1 < w * h then some (rasterCell xs ys w (k + 1)) else none := by
  have b1 := xe.isLt
  have b2 := ye.isLt
  have wpos : 0 < w := Nat.pos_of_mul_pos_right (Nat.lt_of_le_of_lt (Nat.zero_le k) hk)
  have hr : k % w < w := Nat.mod_lt _ wpos
  have hq : k / w < h := by rw [Nat.div_lt_iff_lt_mul wpos, Nat.mul_comm]; exact hk
  have e1 : (xs.toNat + k % w) % 65536 = xs.toNat + k % w := Nat.mod_eq_of_lt (by omega)
  have e2 : (ys.toNat + k / w) % 65536 = ys.toNat + k / w := Nat.mod_eq_of_lt (by omega)
  have hdm := Nat.div_add_mod k w
  unfold nextCell rasterCell
  simp only [BitVec.toNat_ofNat, Nat.reducePow, e1, e2]
  by_cases c1 : k % w + 1 < w
  · have hs : k + 1 = k % w + 1 + w * (k / w) := by omega
    have d1 : (k + 1) / w = k / w := by
      rw [hs, Nat.add_mul_div_left _ _ wpos, Nat.div_eq_of_lt c1, Nat.zero_add]
    have d2 : (k + 1) % w = k % w + 1 := by rw [hs, Nat.add_mul_mod_self_left, Nat.mod_eq_of_lt c1]
    have d3 : k + 1 < w * h := by
      rw [Nat.mul_comm, ← Nat.div_lt_iff_lt_mul wpos, d1]
      exact hq
    rw [if_pos (by omega), if_pos d3, d1, d2]
    simp only [Option.some.injEq, Prod.mk.injEq, and_true]
    exact (BitVec.ofNat_add _ _).symm
  · have hm : k + 1 = w * (k / w + 1) := by rw [Nat.mul_add]; omega
    have d1 : (k + 1) / w = k / w + 1 := by rw [hm, Nat.mul_div_cancel_left _ wpos]
    have d2 : (k + 1) % w = 0 := by rw [hm, Nat.mul_mod_right]
    rw [if_neg (by omega), d1, d2]
    by_cases c2 : k / w + 1 < h
    · have d3 : k + 1 < w * h := by rw [hm]; exact Nat.mul_lt_mul_of_pos_left c2 wpos
      rw [if_pos (by omega), if_pos d3]
      simp only [Option.some.injEq, Prod.mk.injEq]
      exact ⟨by simp, (BitVec.ofNat_add _ _).symm⟩
    · have d3 : ¬ k + 1 < w * h := by
        have : k / w + 1 = h := by omega
        rw [hm, this]
        omega
      rw [if_neg (by omega), if_neg d3]

/-- RAMWR is the current command, no half pixel is pending, and the window is known. -/
structure Streaming (q : Params) (p : Periph) (xs xe ye : Half) : Prop where
  awake : p.pmode = .awake
  command : p.cur = some (q.opc.ramwr, [])
  whole : p.half = none
  first : p.xs = some xs
  last : p.xe = some xe
  bottom : p.ye = some ye

theorem receive_pixel {q : Params} {p : Periph} (hq : q.wf) {xs xe ye x y : Half} (hs : Streaming q p xs xe ye)
    (hp : p.wp = some (x, y)) (h l : Byte) :
    (p.receive q .D h).receive q .D l = { p with fm := p.fm.setCell x y h l, wp := nextCell xs xe ye x y } := by
  obtain ⟨a, b, c, d, e, f⟩ := hs
  rw [receive_pixel_byte hq a b]
  have : p.onPixelByte h = { p with half := some h } := by simp [Periph.onPixelByte, hp, c, d, e, f]
  rw [this, receive_pixel_byte (p := { p with half := some h }) hq a b]
  simp [Periph.onPixelByte, hp, c, d, e, f]

/-- Frame memory with pixels written from the `k`-th cell on, high byte first. -/
def fillFrom (xs ys : Half) (w k : Nat) (m : Memory) (bytes : List Byte) : Memory :=
  match bytes with
  | h :: l :: rest => fillFrom xs ys w (k + 1) (m.setCell (rasterCell xs ys w k).1 (rasterCell xs ys w k).2 h l) rest
  | _ => m

/-- A stream of at most what is left of the window: its pixels land one after another, and the write pointer stands
behind the last. -/
theorem receive_stream {q : Params} (hq : q.wf) {xs xe ys ye : Half} {w h : Nat} (hw : xs.toNat + w = xe.toNat + 1)
    (hh : ys.toNat + h = ye.toNat + 1) (n : Nat) (bytes : List Byte) (hb : bytes.length = 2 * n) (k : Nat)
    (hk : k + n ≤ w * h) (p : Periph) (hs : Streaming q p xs xe ye)
    (hp : p.wp = if k < w * h then some (rasterCell xs ys w k) else none) :
    bytes.foldl (fun p b => p.receive q .D b) p =
      { p with fm := fillFrom xs ys w k p.fm bytes,
               wp := if k + n < w * h then some (rasterCell xs ys w (k + n)) else none } := by
  induction n generalizing bytes k p with
  | zero =>
    obtain rfl : bytes = [] := List.eq_nil_of_length_eq_zero (by omega)
    simp [fillFrom, ← hp]
  | succ n ih =>
    match bytes, hb with
    | a :: b :: rest, hb =>
      simp only [List.foldl_cons]
      rw [if_pos (by omega)] at hp
      have hr : rest.length = 2 * n := by simp at hb; omega
      rw [receive_pixel (x := (rasterCell xs ys w k).1) (y := (rasterCell xs ys w k).2) hq hs hp,
        ih rest hr (k + 1) (by omega)
        { p with fm := p.fm.setCell (rasterCell xs ys w k).1 (rasterCell xs ys w k).2 a b,
                 wp := nextCell xs xe ye (rasterCell xs ys w k).1 (rasterCell xs ys w k).2 }
        { hs with }
        (nextCell_raster hw hh k (by omega))]
      rw [show k + 1 + n = k + (n + 1) by omega]
      rfl

theorem raster_inj {xs ys : Half} {w h j k : Nat} (hx : xs.toNat + w ≤ 65536) (hy : ys.toNat + h ≤ 65536)
    (hj : j < w * h) (hk : k < w * h) (e : rasterCell xs ys w j = rasterCell xs ys w k) : j = k := by
  have wpos : 0 < w := Nat.pos_of_mul_pos_right (Nat.lt_of_le_of_lt (Nat.zero_le j) hj)
  have r1 := Nat.mod_lt j wpos
  have r2 := Nat.mod_lt k wpos
  have q1 : j / w < h := by rw [Nat.div_lt_iff_lt_mul wpos, Nat.mul_comm]; exact hj
  have q2 : k / w < h := by rw [Nat.div_lt_iff_lt_mul wpos, Nat.mul_comm]; exact hk
  simp only [rasterCell, Prod.mk.injEq] at e
  have e1 := congrArg BitVec.toNat e.1
  have e2 := congrArg BitVec.toNat e.2
  simp only [BitVec.toNat_ofNat, Nat.reducePow] at e1 e2
  rw [Nat.mod_eq_of_lt (a := xs.toNat + j % w) (by omega), Nat.mod_eq_of_lt (a := xs.toNat + k % w) (by omega)] at e1
  rw [Nat.mod_eq_of_lt (a := ys.toNat + j / w) (by omega), Nat.mod_eq_of_lt (a := ys.toNat + k / w) (by omega)] at e2
  rw [← Nat.div_add_mod j w, ← Nat.div_add_mod k w]
  have : j / w = k / w := by omega
  rw [this, show j % w = k % w by omega]

/-- A cell the stream does not reach is as before. -/
theorem fillFrom_other (xs ys : Half) (w n k : Nat) (bytes : List Byte) (hb : bytes.length = 2 * n) (m : Memory)
    (c : Half × Half) (h : ∀ j, k ≤ j → j < k + n → rasterCell xs ys w j ≠ c) :
    (fillFrom xs ys w k m bytes).cell c.1 c.2 = m.cell c.1 c.2 := by
  induction n generalizing bytes k m with
  | zero =>
    obtain rfl : bytes = [] := List.eq_nil_of_length_eq_zero (by omega)
    rfl
  | succ n ih =>
    match bytes, hb with
    | a :: b :: rest, hb =>
      simp only [fillFrom]
      rw [ih (k + 1) rest (by simp at hb; omega) _ fun j h1 h2 => h j (by omega) (by omega), cell_setCell, if_neg]
      rintro ⟨h1, h2⟩
      exact h k (by omega) (by omega) (Prod.ext h1.symm h2.symm)

/-- The `j`-th pixel of the stream stands in the `j`-th cell from where it began. -/
theorem fillFrom_cell (xs ys : Half) (w h n k : Nat) (hx : xs.toNat + w ≤ 65536) (hy : ys.toNat + h ≤ 65536)
    (bytes : List Byte) (hb : bytes.length = 2 * n) (hk : k + n ≤ w * h) (m : Memory) (j : Nat) (hj : j < n) :
    (fillFrom xs ys w k m bytes).cell (rasterCell xs ys w (k + j)).1 (rasterCell xs ys w (k + j)).2 =
      some (bytes.getD (2 * j) 0 ++ bytes.getD (2 * j + 1) 0) := by
  induction n generalizing bytes k m j with
  | zero => omega
  | succ n ih =>
    match bytes, hb with
    | a :: b :: rest, hb =>
      simp only [fillFrom]
      cases j with
      | zero =>
        rw [fillFrom_other _ _ _ n _ _ (by simp at hb; omega), cell_setCell, if_pos ⟨rfl, rfl⟩]
        · rfl
        · intro i h1 h2 he
          have := raster_inj hx hy (by omega) (by omega) he
          omega
      | succ j =>
        have := ih (k + 1) rest (by simp at hb; omega) (by omega)
          (m.setCell (rasterCell xs ys w k).1 (rasterCell xs ys w k).2 a b) j (by omega)
        rw [show k + 1 + j = k + (j + 1) by omega] at this
        rw [this, show 2 * (j + 1) = 2 * j + 2 by omega]
        simp

/-- The window program, awake and between commands: the window is known and the write pointer stands at its first
cell. -/
theorem replay_window {q : Params} {p : Periph} (m : DcMode) (hq : q.wf) (ha : p.pmode = .awake)
    (hm : p.midCommand q.opc = false) (hh : p.half = none) (hp : p.pixfmt.isSome) {X0 Y0 X1 Y1 : Nat} (hx : X0 ≤ X1)
    (hy : Y0 ≤ Y1) (bx : X1 < 65536) (bY : Y1 < 65536) :
    p.replay q m (windowEvents q X0 Y0 X1 Y1) =
      { p with xs := some (BitVec.ofNat 16 X0), xe := some (BitVec.ofNat 16 X1), ys := some (BitVec.ofNat 16 Y0),
               ye := some (BitVec.ofNat 16 Y1), wp := some (BitVec.ofNat 16 X0, BitVec.ofNat 16 Y0),
               cur := some (q.opc.ramwr, []) } := by
  have c := commandOf_opcodes hq.1
  obtain ⟨f, hf⟩ := Option.isSome_iff_exists.mp hp
  obtain ⟨pmode, lowOk, madctl, pixfmt, inv, on, xs, xe, ys, ye, cur, wp, half, fm⟩ := p
  dsimp only at ha hh hf
  subst ha hh hf
  simp only [windowEvents, replay_append, be16, List.cons_append, List.nil_append]
  rw [replay_command4 _ _ _ _ _ ⟨.inr rfl, hm, rfl⟩ c.2.2.2.2.1 rfl]
  simp only [Periph.execute, be16_join]
  rw [replay_command4 _ _ _ _ _ ⟨.inr rfl, by simp [Periph.midCommand, c, nargs], rfl⟩ c.2.2.2.2.2.1 rfl]
  simp only [Periph.execute, be16_join]
  rw [replay_command0 _ ⟨.inr rfl, by simp [Periph.midCommand, c, nargs], rfl⟩ c.2.2.2.2.2.2.1 rfl]
  simp only [Periph.execute, Periph.prime]
  rw [if_pos (by simp only [BitVec.toNat_ofNat]; omega)]

/-- The window program and a stream of exactly the window's size: the window is full. -/
theorem replay_window_pixels {q : Params} {p : Periph} (m : DcMode) (hq : q.wf) (ha : p.pmode = .awake)
    (hm : p.midCommand q.opc = false) (hh : p.half = none) (hp : p.pixfmt.isSome) {X0 Y0 w h : Nat} (hw : 0 < w)
    (h0 : 0 < h) (bx : X0 + w ≤ 65536) (bY : Y0 + h ≤ 65536) (bytes : List Byte)
    (hb : bytes.length = 2 * (w * h)) :
    p.replay q m (windowEvents q X0 Y0 (X0 + w - 1) (Y0 + h - 1) ++ pixelEvents bytes) =
      { p with xs := some (BitVec.ofNat 16 X0), xe := some (BitVec.ofNat 16 (X0 + w - 1)),
               ys := some (BitVec.ofNat 16 Y0), ye := some (BitVec.ofNat 16 (Y0 + h - 1)), wp := none,
               cur := some (q.opc.ramwr, []),
               fm := fillFrom (BitVec.ofNat 16 X0) (BitVec.ofNat 16 Y0) w 0 p.fm bytes } := by
  rw [replay_append, replay_window m hq ha hm hh hp (X0 := X0) (Y0 := Y0) (by omega) (by omega) (by omega) (by omega),
    modeAfter_window, replay_pixels]
  have pos : 0 < w * h := Nat.mul_pos hw h0
  have key := receive_stream hq (w := w) (h := h) (xs := BitVec.ofNat 16 X0) (xe := BitVec.ofNat 16 (X0 + w - 1))
    (ys := BitVec.ofNat 16 Y0) (ye := BitVec.ofNat 16 (Y0 + h - 1)) (by simp; omega) (by simp; omega) (w * h) bytes hb 0
    (by omega)
    { p with xs := some (BitVec.ofNat 16 X0), xe := some (BitVec.ofNat 16 (X0 + w - 1)), ys := some (BitVec.ofNat 16 Y0),
             ye := some (BitVec.ofNat 16 (Y0 + h - 1)), wp := some (BitVec.ofNat 16 X0, BitVec.ofNat 16 Y0),
             cur := some (q.opc.ramwr, []) }
    { awake := ha, command := rfl, whole := hh, first := rfl, last := rfl, bottom := rfl }
    (by
      simp only [pos, if_true, rasterCell, BitVec.toNat_ofNat, Nat.zero_mod, Nat.zero_div, Nat.add_zero]
      congr 2 <;> exact BitVec.eq_of_toNat_eq (by simp))
  rw [key]
  simp

end Sys2Proof.Machine
end

