-- ==== Sys2Proof/Tests/Slice0.lean ====
section
/-! SUPPORT. The model's own tests: expected results from spec/95_test_vectors.md (its vector named in each comment) or
worked out by hand from the rule named; and for every obligation with hypotheses a witness that meets them. -/

namespace Sys2Proof.Machine

/-! ### The bench -/

/-- The parameters of spec/95_test_vectors.md section 1; `pixfmtBgr` is the bench's own value. -/
def benchParams : Params :=
  { opc := defaultOpcodes, madctlArg := defaultMadctlTable, pixfmtRgb := 0x05, pixfmtBgr := 0x85,
    madctlReset := some 0x00 }

/-- Ready, the controller initialised, a fault-free link of twelve transfers, W = 128, H = 160. -/
def bench : State :=
  { cs := .released, dc := .D, rst := .high, fsm := .ready, orient := .normal, offset := { dx := 0, dy := 0 },
    cfg := { width := 128, height := 160, bgr := false, invert := false }, params := benchParams,
    periph := { pmode := .awake, lowOk := true, madctl := some 0x00, pixfmt := some 0x05, on := true,
                cur := some (0x29, []) },
    trace := [], results := [], inputs := [], link := List.replicate 12 .ok, draws := 0 }

/-- The bench with another panel. -/
def benchPanel (w h : Nat) : State := { bench with cfg := { bench.cfg with width := w, height := h } }

/-- The bench with the relocation pair set. -/
def benchOffset (dx dy : Half) : State := { bench with offset := { dx := dx, dy := dy } }

/-- The bench with the link's answers given. -/
def benchLink (l : List BusOutcome) : State := { bench with link := l }

/-- The bench with a controller given. -/
def benchPeriph (p : Periph) : State := { bench with periph := p }

/-- The controller streaming into the window (0,0) to (1,1), the write pointer given. -/
def streaming (wp : Option (Half × Half)) : Periph :=
  { bench.periph with xs := some 0, xe := some 1, ys := some 0, ye := some 1, cur := some (0x2C, []), wp := wp }

/-- What a next state shows. -/
def seen {α : Type} (f : State → α) (o : Host.Outcome State Fault Refusal) : Option α :=
  match o with
  | .next t => some (f t)
  | _ => none

/-- `C[b]` of spec/00_scope.md section 7.2. -/
def wireC (b : Byte) : List Event := [.dc .C, .cs .asserted, .tx b, .cs .released]

/-- `D[bs]` of spec/00_scope.md section 7.2. -/
def wireD (bs : List Byte) : List Event := [.dc .D, .cs .asserted] ++ bs.map .tx ++ [.cs .released]

/-- RED, GREEN, BLUE, WHITE: `BMP4`. -/
def bmp4 : List Byte := [0xF8, 0x00, 0x07, 0xE0, 0x00, 0x1F, 0xFF, 0xFF]

/-! ### Well-formedness: an ill-formed term for each check -/

theorem test_wf_refuses_reserved_host : (Instr.reservedHost 3).wf benchParams = false := by decide
theorem test_wf_accepts_draw : (Instr.draw 0 0 0 []).wf benchParams = true := by decide
/-- `0x61` is none of the four bytes of R62, `0x60` is landscape. -/
theorem test_wf_refuses_foreign_orientation_byte :
    (Instr.madctl 0x61).wf benchParams = false ∧ (Instr.madctl 0x60).wf benchParams = true := by decide
theorem test_wf_refuses_zero_width : ¬ PanelCfg.wf { width := 0, height := 1, bgr := false, invert := false } := by decide
theorem test_wf_refuses_wide_panel : ¬ PanelCfg.wf { width := 65536, height := 1, bgr := false, invert := false } := by
  decide
theorem test_wf_refuses_zero_height : ¬ PanelCfg.wf { width := 1, height := 0, bgr := false, invert := false } := by
  decide
theorem test_wf_refuses_tall_panel : ¬ PanelCfg.wf { width := 1, height := 65536, bgr := false, invert := false } := by
  decide
theorem test_wf_refuses_equal_command_bytes :
    ¬ Params.wf { benchParams with opc := { defaultOpcodes with invon := 0x29 } } := by decide
theorem test_wf_refuses_equal_orientation_bytes :
    ¬ Params.wf { benchParams with madctlArg := { defaultMadctlTable with inverted := 0x00 } } := by decide
theorem test_wf_default_params : benchParams.wf := by decide

/-! ### Decoding: words written out from spec/30_encoding.md R66, R67 (host) and R56, R58 (wire) -/

theorem test_decode_host_words :
    decode benchParams (.request { op := 0b0000#4, a := 7 }) = .instr .reset ∧
    decode benchParams (.request { op := 0b0001#4 }) = .instr .initialise ∧
    decode benchParams (.request { op := 0b0010#4, a := 0 }) = .instr (.setOrientation .normal) ∧
    decode benchParams (.request { op := 0b0010#4, a := 1 }) = .instr (.setOrientation .landscape) ∧
    decode benchParams (.request { op := 0b0010#4, a := 2 }) = .instr (.setOrientation .landscapeSwapped) ∧
    decode benchParams (.request { op := 0b0010#4, a := 3 }) = .instr (.setOrientation .inverted) ∧
    decode benchParams (.request { op := 0b0011#4, a := 0xFFFD, b := 0x0005 }) = .instr (.setOffset (-3) 5) ∧
    decode benchParams (.request { op := 0b0100#4, a := 1, b := 2, c := 3, d := 4 }) = .instr (.setWindow 1 2 3 4) ∧
    decode benchParams (.request { op := 0b0101#4, payload := [0xAA, 0x01] }) = .instr (.writePixels [0xAA, 0x01]) ∧
    decode benchParams (.request { op := 0b0110#4, a := 0x07E0 }) = .instr (.clear 0x07E0) ∧
    decode benchParams (.request { op := 0b0111#4, a := 5, b := 6, c := 2, payload := bmp4 }) =
      .instr (.draw 5 6 2 bmp4) := by decide

theorem test_decode_wire_words :
    decode benchParams (.frame [(.C, 0b00000001)]) = .instr .swreset ∧
    decode benchParams (.frame [(.C, 0b00010001)]) = .instr .slpout ∧
    decode benchParams (.frame [(.C, 0b00100001)]) = .instr .invon ∧
    decode benchParams (.frame [(.C, 0b00101001)]) = .instr .dispon ∧
    decode benchParams (.frame [(.C, 0b00101010), (.D, 0x01), (.D, 0x02), (.D, 0x03), (.D, 0x04)]) =
      .instr (.caset 0x0102 0x0304) ∧
    decode benchParams (.frame [(.C, 0b00101011), (.D, 0x01), (.D, 0x02), (.D, 0x03), (.D, 0x04)]) =
      .instr (.raset 0x0102 0x0304) ∧
    decode benchParams (.frame [(.C, 0b00101100)]) = .instr .ramwr ∧
    decode benchParams (.frame [(.C, 0b00110110), (.D, 0xA0)]) = .instr (.madctl 0xA0) ∧
    decode benchParams (.frame [(.C, 0b00111010), (.D, 0x05)]) = .instr (.pixfmt 0x05) ∧
    decode benchParams (.frame [(.D, 0x2C), (.D, 0x00)]) = .instr (.pixels [0x2C, 0x00]) ∧
    decode benchParams (.frame []) = .instr (.pixels []) := by decide

theorem test_decode_rejects_by_name :
    decode benchParams (.request { op := 0x8 }) = .rejected .reservedSelector ∧
    decode benchParams (.request { op := 0xF }) = .rejected .reservedSelector ∧
    decode benchParams (.request { op := 0x2, a := 4 }) = .rejected .reservedOrientation ∧
    decode benchParams (.request { op := 0x2, a := 0x8000 }) = .rejected .reservedOrientation ∧
    decode benchParams (.frame [(.C, 0x2E)]) = .rejected .unknownCommand ∧
    decode benchParams (.frame [(.C, 0x36), (.D, 0x61)]) = .rejected .foreignOrientationByte ∧
    decode benchParams (.frame [(.C, 0x36)]) = .rejected .malformedFrame ∧
    decode benchParams (.frame [(.C, 0x36), (.C, 0xA0)]) = .rejected .malformedFrame ∧
    decode benchParams (.frame [(.D, 0x00), (.C, 0x29)]) = .rejected .malformedFrame := by decide

theorem test_no_encoding :
    encode benchParams (.busWrite [1]) = none ∧ encode benchParams .hwReset = none ∧
    encode benchParams (.sendCmd 0x29 []) = none ∧ encode benchParams (.sendPix []) = none ∧
    encode benchParams (.reservedHost 0) = none ∧ encode benchParams (.madctl 0x61) = none := by decide

theorem test_table_words :
    decodeTableWord 4 0x0 = some .reset ∧ decodeTableWord 4 0x1 = some .initialise ∧
    decodeTableWord 4 0x7 = some (.draw 0 0 0 []) ∧ decodeTableWord 4 0x8 = none ∧ decodeTableWord 8 0x11 = some .slpout ∧
    decodeTableWord 8 0x2A = some (.caset 0 0) ∧ decodeTableWord 8 0x36 = some (.madctl 0) ∧
    decodeTableWord 8 0x3B = none := by decide

theorem test_table_word_is_run_next :
    step (State.reset.withFetchWord 4 0x3) = exec (.setOffset 0 0) State.reset ∧
    step (State.reset.withFetchWord 8 0x2B) = exec (.raset 0 0) State.reset := ⟨rfl, rfl⟩

/-! ### Reset (spec/10_state.md R23) -/

theorem test_reset_state :
    State.reset.fsm = .uninitialized ∧ State.reset.cs = .released ∧ State.reset.orient = .normal ∧
    State.reset.offset = { dx := 0, dy := 0 } ∧ State.reset.trace = [] ∧ State.reset.periph.pmode = .unknown ∧
    State.reset.periph.fm.cell 0 0 = none := by decide

/-! ### Bus Transport (T2, T4, T5, T6, T7) -/

theorem test_buswrite_ok :
    seen (fun t => (t.trace, t.results, t.cs)) (exec (.busWrite [0x01, 0x02, 0x03]) bench) =
      some ([.cs .asserted, .tx 0x01, .tx 0x02, .tx 0x03, .cs .released], [.ok], .released) := by decide
theorem test_buswrite_fault :
    seen (fun t => (t.trace, t.results, t.cs, t.periph.pmode)) (exec (.busWrite [0x01, 0x02, 0x03]) (benchLink [.fault 1])) =
      some ([.cs .asserted, .tx 0x01, .cs .released], [.err .busFault], .released, .unknown) := by decide
/-- T5, and "not admitted": `fault(4)` is no member of `BusOutcome(3)` and `fault(3)` is. -/
theorem test_bus_outcome_members :
    admittedOutcome 3 (.fault 3) = true ∧ admittedOutcome 3 (.fault 4) = false ∧ admittedOutcome 0 (.fault 0) = true := by
  decide
theorem test_buswrite_empty_fault :
    seen (fun t => (t.trace, t.results)) (exec (.busWrite []) (benchLink [.fault 0])) =
      some ([.cs .asserted, .cs .released], [.err .busFault]) := by decide

/-- U2: after a bus fault frame memory is any value. -/
theorem test_fault_forgets_frame_memory :
    seen (fun t => (t.periph.fm.cell 0 0, t.periph.panelPixel benchParams (0, 0)))
      (exec (.busWrite [0x01]) { benchLink [.fault 1] with
        periph := { bench.periph with fm := Memory.setCell [] 0 0 0xF8 0x00 } }) = some (none, none) := by decide

/-! ### Framer (F2, F4, F8, F11) -/

theorem test_hwreset_from_low :
    seen (fun t => (t.trace, t.results, t.rst, t.dc)) (exec .hwReset { bench with rst := .low }) =
      some ([.rst .low, .wait .rstLow, .rst .high, .wait .rstSettle], [.ok], .high, .D) := by decide
theorem test_sendcmd_repeats_the_drive :
    seen (fun t => (t.trace, t.dc)) (exec (.sendCmd 0x29 []) { bench with dc := .C }) =
      some ([.dc .C, .cs .asserted, .tx 0x29, .cs .released], .C) := by decide
theorem test_sendcmd_data_fault :
    seen (fun t => (t.trace, t.results, t.dc)) (exec (.sendCmd 0x2A [0, 0, 0, 0x7F]) (benchLink [.ok, .fault 2])) =
      some ([.dc .C, .cs .asserted, .tx 0x2A, .cs .released, .dc .D, .cs .asserted, .tx 0, .tx 0, .cs .released],
        [.err .busFault], .D) := by decide
theorem test_sendpix_odd :
    seen (fun t => (t.trace, t.results)) (exec (.sendPix [0xF8, 0x00, 0x07]) bench) =
      some ([.dc .D, .cs .asserted, .tx 0xF8, .tx 0x00, .tx 0x07, .cs .released], [.ok]) := by decide

/-! ### Controller State Machine (K1 to K12) -/

theorem test_reset_leaves_ready :
    seen (fun t => (t.trace, t.results, t.fsm)) (exec .reset bench) =
      some ([.rst .low, .wait .rstLow, .rst .high, .wait .rstSettle], [.ok], .awaitingInit) := by decide
/-- K1, from construction: `I1`, 30 events. -/
theorem test_initialise_inverted :
    seen (fun t => (t.trace, t.fsm, t.dc)) (exec .initialise { bench with cfg := { bench.cfg with invert := true } }) =
      some ([.rst .low, .wait .rstLow, .rst .high, .wait .rstSettle] ++ wireC 0x01 ++ [.wait .swreset] ++ wireC 0x11 ++
        [.wait .slpout] ++ wireC 0x3A ++ wireD [0x05] ++ wireC 0x21 ++ wireC 0x29, .ready, .C) := by decide
/-- K2. -/
theorem test_initialise_fault :
    seen (fun t => (t.trace, t.results, t.fsm, t.rst)) (exec .initialise (benchLink [.ok, .ok, .fault 0])) =
      some ([.rst .low, .wait .rstLow, .rst .high, .wait .rstSettle] ++ wireC 0x01 ++ [.wait .swreset] ++ wireC 0x11 ++
        [.wait .slpout, .dc .C, .cs .asserted, .cs .released], [.err .busFault], .awaitingInit, .high) := by decide
theorem test_set_orientation :
    seen (fun t => (t.trace, t.orient)) (exec (.setOrientation .landscapeSwapped) bench) =
      some (wireC 0x36 ++ wireD [0xA0], .landscapeSwapped) := by decide
theorem test_set_orientation_fault :
    seen (fun t => (t.trace, t.orient, t.results, t.fsm))
        (exec (.setOrientation .landscape) (benchLink [.ok, .fault 0])) =
      some (wireC 0x36 ++ wireD [], .normal, [.err .busFault], .ready) := by decide
/-- K5. -/
theorem test_set_offset :
    seen (fun t => (t.offset.dx.toInt, t.offset.dy.toInt, t.trace, t.results)) (exec (.setOffset 32767 0x8000) bench) =
      some (32767, -32768, [], [.ok]) := by decide
/-- K6, fifth row. -/
theorem test_set_window_relocated :
    seen (fun t => (t.trace, t.results)) (exec (.setWindow 3 0 12 9) (benchOffset (-3) 5)) =
      some (wireC 0x2A ++ wireD [0, 0, 0, 9] ++ wireC 0x2B ++ wireD [0, 5, 0, 0x0E] ++ wireC 0x2C, [.ok]) := by decide
/-- K7: no wrap in the offset sum. -/
theorem test_set_window_does_not_wrap :
    seen (fun t => (t.trace, t.results))
        (exec (.setWindow 65535 0 65535 0) { benchPanel 40000 1 with offset := { dx := 32767, dy := 0 } }) =
      some ([], [.err .boundsError]) := by decide
/-- K11: two pieces. -/
theorem test_write_pixels_continues :
    seen (fun t => (t.periph.fm.cell 0 0, t.periph.fm.cell 1 0, t.periph.wp))
        (exec (.writePixels [0x07, 0xE0])
          (benchPeriph ((streaming (some (0, 0))).replay benchParams .D (wireD [0xF8, 0x00])))) =
      some (some 0xF800, some 0x07E0, some (0, 1)) := by decide
theorem test_write_pixels_uninitialised :
    seen (fun t => (t.trace, t.results)) (exec (.writePixels [0]) { bench with fsm := .uninitialized }) =
      some ([], [.err .sequenceError]) := by decide
/-- K9. -/
theorem test_clear_trace :
    seen (fun t => (t.trace, t.dc)) (exec (.clear 0x1234) (benchPanel 2 3)) =
      some (wireC 0x2A ++ wireD [0, 0, 0, 1] ++ wireC 0x2B ++ wireD [0, 0, 0, 2] ++ wireC 0x2C ++
        wireD [0x12, 0x34, 0x12, 0x34, 0x12, 0x34, 0x12, 0x34, 0x12, 0x34, 0x12, 0x34], .D) := rfl
set_option maxRecDepth 8000 in
theorem test_clear_cells :
    seen (fun t => (t.periph.fm.cell 1 2, t.periph.fm.cell 2 0, t.periph.wp)) (exec (.clear 0x1234) (benchPanel 2 3)) =
      some (some 0x1234, none, none) := rfl

/-! ### Blit Renderer (B1, B2, B5) -/

theorem test_draw_trace :
    seen State.trace (exec (.draw 10 20 3 [0, 1, 0, 2, 0, 3, 0, 4, 0, 5, 0, 6]) (benchOffset 2 1)) =
      some (wireC 0x2A ++ wireD [0, 0x0C, 0, 0x0E] ++ wireC 0x2B ++ wireD [0, 0x15, 0, 0x16] ++ wireC 0x2C ++
        wireD [0, 1, 0, 2, 0, 3, 0, 4, 0, 5, 0, 6]) := rfl
set_option maxRecDepth 8000 in
theorem test_draw_cells :
    seen (fun t => (t.periph.fm.cell 13 21, t.periph.fm.cell 12 22, t.periph.fm.cell 11 21))
        (exec (.draw 10 20 3 [0, 1, 0, 2, 0, 3, 0, 4, 0, 5, 0, 6]) (benchOffset 2 1)) =
      some (some 0x0002, some 0x0004, none) := rfl
theorem test_bitmap_shapes :
    bitmapShape bmp4 2 = some (4, 2) ∧ bitmapShape bmp4 4 = some (4, 1) ∧ bitmapShape bmp4 1 = some (4, 4) ∧
    bitmapShape [0xF8, 0x00] 1 = some (1, 1) ∧ bitmapShape [0xF8, 0x00, 0x07, 0xE0, 0x00, 0x1F] 2 = none ∧
    bitmapShape [0xF8, 0x00, 0x07, 0xE0] 4 = none ∧ bitmapShape [0xF8, 0x00, 0x07] 1 = none ∧
    bitmapShape [] 2 = none ∧ bitmapShape [0xF8, 0x00] 0 = none := by decide
theorem test_draw_priority :
    seen State.results (exec (.draw 500 500 0 [0xF8, 0x00, 0x07]) { bench with fsm := .uninitialized }) =
      some [.err .sequenceError] ∧
    seen State.results (exec (.draw 500 500 2 [0xF8, 0x00, 0x07, 0xE0, 0x00, 0x1F]) bench) =
      some [.err .malformedInput] ∧
    seen State.results (exec (.draw 500 500 2 bmp4) bench) = some [.err .boundsError] := by decide

/-! ### Wire commands (by hand from spec/20_memory.md R46 to R50) -/

theorem test_swreset : seen (fun t => (t.periph.pmode, t.periph.madctl, t.periph.on)) (exec .swreset bench) =
    some (.swResetWait, none, false) := by decide
theorem test_slpout_asleep : seen (fun t => t.periph.pmode)
    (exec .slpout (benchPeriph { bench.periph with pmode := .sleep })) = some .wakeWait := by decide
theorem test_invon_asleep_is_lost : seen (fun t => t.periph.pmode)
    (exec .invon (benchPeriph { bench.periph with pmode := .sleep })) = some .unknown := by decide
theorem test_dispon : seen (fun t => t.periph.on) (exec .dispon (benchPeriph { bench.periph with on := false })) =
    some true := by decide
theorem test_caset : seen (fun t => (t.trace, t.periph.xs, t.periph.xe)) (exec (.caset 0x0102 0x0304) bench) =
    some (wireC 0x2A ++ wireD [1, 2, 3, 4], some 0x0102, some 0x0304) := by decide
theorem test_raset : seen (fun t => (t.trace, t.periph.ys, t.periph.ye)) (exec (.raset 0x0102 0x0304) bench) =
    some (wireC 0x2B ++ wireD [1, 2, 3, 4], some 0x0102, some 0x0304) := by decide
/-- M3: write-to-RAM with no window. -/
theorem test_ramwr_without_window : seen (fun t => t.periph.pmode) (exec .ramwr bench) = some .unknown := by decide
theorem test_madctl_forgets_on_change :
    let known := benchPeriph { bench.periph with fm := [(0, 0xF8), (1, 0x00)] }
    seen (fun t => (t.periph.fm, t.periph.madctl)) (exec (.madctl 0x60) known) = some ([], some 0x60) ∧
    seen (fun t => t.periph.fm) (exec (.madctl 0x00) known) = some [(0, 0xF8), (1, 0x00)] := by decide
/-- R68, wire side: a byte that is none of the four. -/
theorem test_madctl_foreign_byte_is_lost : seen (fun t => (t.periph.pmode, t.periph.fm)) (exec (.madctl 0x61) bench) =
    some (.unknown, []) := by decide
theorem test_pixfmt : seen (fun t => t.periph.pixfmt) (exec (.pixfmt 0x55) bench) = some (some 0x55) := by decide
/-- V6's last pixel, and M4's byte too many. -/
theorem test_pixels_last_cell : seen (fun t => (t.periph.fm.cell 1 1, t.periph.wp, t.periph.pmode))
    (exec (.pixels [0xFF, 0xFF]) (benchPeriph (streaming (some (1, 1))))) = some (some 0xFFFF, none, .awake) := by decide
theorem test_pixels_overrun : seen (fun t => t.periph.pmode)
    (exec (.pixels [0x00]) (benchPeriph (streaming none))) = some .unknown := by decide

/-! ### The controller over a whole trace (M1, M2, M5) -/

theorem test_controller_after_I0 :
    Periph.replay benchParams .D {} (initEvents benchParams bench.cfg) =
      { pmode := .awake, lowOk := true, madctl := some 0x00, pixfmt := some 0x05, on := true, cur := some (0x29, []) } := by
  decide
theorem test_short_pulse_is_lost :
    (Periph.replay benchParams .D {} [.rst .low, .rst .high]).pmode = .unknown := by decide
theorem test_command_on_half_pixel_is_lost :
    ((streaming (some (0, 0))).replay benchParams .D (wireD [0xF8, 0x00, 0x07] ++ wireC 0x29)).pmode = .unknown := by decide

/-! ### The response (spec/30_encoding.md R65) and frame memory -/

theorem test_status_codes :
    Result.status .ok = 0 ∧ Result.status (.err .busFault) = 1 ∧ Result.status (.err .sequenceError) = 2 ∧
    Result.status (.err .boundsError) = 3 ∧ Result.status (.err .malformedInput) = 4 := by decide
theorem test_cells_at_the_edges :
    (Memory.setCell [] 65535 65535 0xAB 0xCD).wf ∧
    (Memory.setCell [] 65535 0 0xAB 0xCD).cell 65535 0 = some 0xABCD ∧
    (Memory.setCell [] 65535 0 0xAB 0xCD).cell 0 1 = none := by decide

/-! ### Witnesses: states and operands that meet the hypotheses of each obligation that has some, clause by clause, at the
ends of the ranges. Named after the obligation. -/

theorem witness_DecodeInvertsEncode :
    benchParams.wf ∧ encode benchParams (.setOffset 0x8000 0xFFFF) = some (.request { op := 3, a := 0x8000, b := 0xFFFF }) ∧
    encode benchParams (.raset 0x0102 0xFFFF) =
      some (.frame [(.C, 0x2B), (.D, 0x01), (.D, 0x02), (.D, 0xFF), (.D, 0xFF)]) := by decide

theorem witness_DecoderYieldsOnlySpelledOperations :
    decode benchParams (.frame [(.C, 0x3A), (.D, 0xFF)]) = .instr (.pixfmt 0xFF) ∧
    decode benchParams (.request { op := 7, c := 0xFFFF }) = .instr (.draw 0 0 0xFFFF []) := by decide

/-- Both ends of the selectors' range and of the orientation codes'. -/
theorem witness_ReservedRequestsTakeNoStep :
    step { bench with inputs := [.request { op := 8 }] } = .refused (.spellsNoOperation .reservedSelector) ∧
    step { bench with inputs := [.request { op := 15 }] } = .refused (.spellsNoOperation .reservedSelector) ∧
    step { bench with inputs := [.request { op := 2, a := 4 }] } = .refused (.spellsNoOperation .reservedOrientation) ∧
    step { bench with inputs := [.request { op := 2, a := 0xFFFF }] } =
      .refused (.spellsNoOperation .reservedOrientation) := ⟨rfl, rfl, rfl, rfl⟩

theorem witness_StepRunsDecodedOperation :
    (present (.request { op := 6, a := 0xFFFF }) bench).inputs = .request { op := 6, a := 0xFFFF } :: [] ∧
    decode benchParams (.request { op := 6, a := 0xFFFF }) = .instr (.clear 0xFFFF) ∧
    (Instr.clear 0xFFFF).wf benchParams = true := by decide

theorem witness_IdleStepChangesNothing : bench.inputs = [] := rfl

/-- The success, a fault before the first byte of an empty transfer, and a fault after the last byte; and an empty link. -/
theorem witness_BusWriteFollowsItsDraw :
    outcome [0x01, 0x02].length (benchLink [.ok]) = .ok ∧
    outcome ([] : List Byte).length (benchLink [.fault 0]) = .fault 0 ∧
    outcome [0x01, 0x02].length (benchLink [.fault 2]) = .fault 2 ∧ (benchLink []).link = [] := by decide

theorem witness_DrawIsAnyMemberOfBusOutcome :
    (benchLink [.fault 3]).link = .fault 3 :: [] ∧ admittedOutcome 3 (.fault 3) = true ∧
    outcome 3 (benchLink [.fault 3]) = .fault 3 ∧ admittedOutcome 0 (.fault 0) = true ∧
    outcome 0 (benchLink [.fault 0]) = .fault 0 ∧ (benchLink []).link = [] := by decide

theorem witness_SendCommandFrames : LinkOk 1 bench ∧ LinkOk 2 bench ∧ [(0x60 : Byte)] ≠ [] := by decide

theorem witness_SendCommandFaultStopsTheFrame :
    (benchLink [.fault 0]).link = .fault 0 :: [] ∧ (benchLink [.fault 1]).link = .fault 1 :: [] ∧
    (benchLink [.ok, .fault 0]).link = .ok :: .fault 0 :: [] ∧ (benchLink [.ok, .fault 4]).link = .ok :: .fault 4 :: [] ∧
    [(0 : Byte), 0, 0, 0x7F] ≠ [] ∧ 4 ≤ [(0 : Byte), 0, 0, 0x7F].length := by decide

theorem witness_SendPixelsStreams :
    LinkOk 1 bench ∧ (benchLink [.fault 3]).link = .fault 3 :: [] ∧ 3 ≤ [(0xF8 : Byte), 0x00, 0x07].length := by decide

theorem witness_InitialiseRunsFixedSequence :
    LinkOk (if bench.cfg.invert then 6 else 5) bench ∧
    LinkOk (if (true : Bool) then 6 else 5) { bench with cfg := { bench.cfg with invert := true } } := by decide

/-- K2 and K3. -/
theorem witness_InitialiseFaultIsFatal :
    seen State.results (exec .initialise (benchLink [.ok, .ok, .fault 0])) = some [.err .busFault] ∧
    seen State.results (exec .initialise (benchLink [.fault 1])) = some [.err .busFault] := by decide

theorem witness_SetOrientationSendsAndRecords : bench.fsm = .ready ∧ LinkOk 2 bench := by decide

/-- Both corners of the panel, under no offset and under a negative one. -/
theorem witness_SetWindowProgramsController :
    ((0 : Int) = (0 : Half).toNat + bench.offset.dx.toInt ∧ (159 : Int) = (159 : Half).toNat + bench.offset.dy.toInt ∧
      (127 : Int) = (127 : Half).toNat + bench.offset.dx.toInt) ∧
    bench.fsm = .ready ∧ InPanel bench.cfg 0 0 127 159 ∧ LinkOk 5 bench ∧
    (0 : Int) = (3 : Half).toNat + (benchOffset (-3) 5).offset.dx.toInt ∧
    (5 : Int) = (0 : Half).toNat + (benchOffset (-3) 5).offset.dy.toInt := by decide

/-- K6: one past each edge, and one below. -/
theorem witness_SetWindowOutsidePanelFails :
    bench.fsm = .ready ∧ ¬ InPanel bench.cfg 0 0 128 0 ∧ ¬ InPanel bench.cfg 0 160 0 160 ∧
    (128 : Int) = (128 : Half).toNat + bench.offset.dx.toInt ∧
    ¬ InPanel bench.cfg (-3) 5 6 14 ∧ (-3 : Int) = (0 : Half).toNat + (benchOffset (-3) 5).offset.dx.toInt := by decide

theorem witness_WritePixelsStreams : bench.fsm = .ready ∧ LinkOk 1 bench := by decide

theorem witness_ClearStreamsWholePanel :
    bench.cfg.wf ∧ bench.fsm = .ready ∧ bench.offset = { dx := 0, dy := 0 } ∧ LinkOk 6 bench ∧
    (benchPanel 1 65535).cfg.wf := by decide

/-- K10, and the same without the offset. -/
theorem witness_ClearFailsExactlyUnderOffset :
    (benchPanel 2 1).cfg.wf ∧ (benchPanel 2 1).fsm = .ready ∧
    seen State.results (exec (.clear 0) { benchPanel 2 1 with offset := { dx := 1, dy := 0 } }) =
      some [.err .boundsError] ∧
    seen State.results (exec (.clear 0) (benchPanel 2 1)) = some [.ok] := by decide

/-- B3: the last place where BMP4 fits. -/
theorem witness_DrawStreamsBitmap :
    ((126 : Int) = (126 : Half).toNat + bench.offset.dx.toInt ∧ (158 : Int) = (158 : Half).toNat + bench.offset.dy.toInt ∧
      (127 : Int) = (126 : Half).toNat + (2 : Half).toNat - 1 + bench.offset.dx.toInt ∧
      (159 : Int) = (158 : Half).toNat + (bmp4.length / 2 / (2 : Half).toNat : Nat) - 1 + bench.offset.dy.toInt) ∧
    bench.fsm = .ready ∧ WellShaped bmp4 2 ∧ InPanel bench.cfg 126 158 127 159 ∧ LinkOk 6 bench := by decide

/-- One bitmap for each way of having no whole rectangle. -/
theorem witness_DrawRefusesMalformedBitmap :
    bench.fsm = .ready ∧ ¬ WellShaped [0xF8, 0x00] 0 ∧ ¬ WellShaped [0xF8, 0x00, 0x07] 1 ∧ ¬ WellShaped [] 2 ∧
    ¬ WellShaped [0xF8, 0x00, 0x07, 0xE0, 0x00, 0x1F] 2 := by decide

/-- B3: one column, and one row, too far. -/
theorem witness_DrawOutsidePanelFails :
    ((127 : Int) = (127 : Half).toNat + bench.offset.dx.toInt ∧
      (128 : Int) = (127 : Half).toNat + (2 : Half).toNat - 1 + bench.offset.dx.toInt) ∧
    bench.fsm = .ready ∧ WellShaped bmp4 2 ∧ ¬ InPanel bench.cfg 127 158 128 159 ∧
    ¬ InPanel bench.cfg 126 159 127 160 := by decide

theorem witness_GatedOperationsNeedReady :
    State.reset.fsm ≠ .ready ∧ ({ bench with fsm := .awaitingInit } : State).fsm ≠ .ready := by decide

/-- The three validation errors. -/
theorem witness_ValidationErrorsChangeNothing :
    (Instr.setWindow 128 0 0 0).hostOperation = true ∧ (Instr.draw 0 0 0 []).hostOperation = true ∧
    seen State.results (exec (.setWindow 128 0 0 0) bench) = some [.err .boundsError] ∧
    seen State.results (exec (.draw 0 0 0 []) bench) = some [.err .malformedInput] ∧
    seen State.results (exec (.clear 0) { bench with fsm := .awaitingInit }) = some [.err .sequenceError] ∧
    ErrKind.boundsError ≠ .busFault ∧ ErrKind.malformedInput ≠ .busFault ∧ ErrKind.sequenceError ≠ .busFault := by decide

theorem witness_BusFaultKeepsRegisters :
    (Instr.setOrientation .inverted).hostOperation = true ∧ Instr.setOrientation .inverted ≠ .initialise ∧
    seen State.results (exec (.setOrientation .inverted) (benchLink [.ok, .fault 1])) = some [.err .busFault] := by decide

theorem witness_WireCommandsGoOutFramed : LinkOk 1 bench ∧ LinkOk 2 bench := by decide

theorem witness_SoftwareResetForgets :
    benchParams.wf ∧ LinkOk 1 bench ∧ bench.periph.pmode = .awake ∧
    bench.periph.midCommand benchParams.opc = false ∧ bench.periph.half = none ∧
    (benchPeriph { pmode := .sleep }).periph.pmode = .sleep ∧
    (benchPeriph { pmode := .sleep }).periph.midCommand benchParams.opc = false := by decide

theorem witness_SleepOutWakesOnlyASleeper :
    benchParams.wf ∧ LinkOk 1 (benchPeriph { pmode := .sleep }) ∧
    (benchPeriph { pmode := .sleep }).periph.midCommand benchParams.opc = false ∧
    (benchPeriph { pmode := .sleep }).periph.half = none ∧ (benchPeriph { pmode := .sleep }).periph.pmode = .sleep ∧
    bench.periph.pmode = .awake ∧ bench.periph.midCommand benchParams.opc = false := by decide

theorem witness_ModeCommandsSetTheirRegister : bench.params.wf ∧ Attentive bench ∧ LinkOk 1 bench ∧ LinkOk 2 bench := by
  decide

/-- The register already holding the byte, and holding another; a byte that is none of the four. -/
theorem witness_MemoryAccessControlForgetsOnChange :
    bench.params.wf ∧ Attentive bench ∧ LinkOk 2 bench ∧ bench.periph.madctl = some 0x00 ∧
    0x00 ∈ madctlBytes bench.params ∧ bench.periph.madctl ≠ some 0xC0 ∧ 0xC0 ∈ madctlBytes bench.params ∧
    (0xC1 : Byte) ∉ madctlBytes bench.params := by decide

theorem witness_WindowCommandsSetTheWindow : bench.params.wf ∧ Attentive bench ∧ LinkOk 2 bench := by decide

/-- A window of one cell, one inverted by one column, and none. -/
theorem witness_WriteToRamPrimesThePointer :
    let one := benchPeriph { bench.periph with xs := some 7, xe := some 7, ys := some 9, ye := some 9 }
    let inverted := benchPeriph { bench.periph with xs := some 8, xe := some 7, ys := some 9, ye := some 9 }
    bench.params.wf ∧ Attentive one ∧ Attentive inverted ∧ LinkOk 1 one ∧ one.periph.pixfmt.isSome = true ∧
    (7 : Half).toNat ≤ (7 : Half).toNat ∧ (7 : Half).toNat < (8 : Half).toNat ∧
    Attentive bench ∧ bench.periph.xs = none := by decide

/-- The pointer inside a row, at a row's end, and at the window's last cell. -/
theorem witness_PixelLandsAtTheWritePointer :
    bench.params.wf ∧ LinkOk 1 (benchPeriph (streaming (some (0, 0)))) ∧
    (streaming (some (0, 0))).pmode = .awake ∧ (streaming (some (0, 0))).cur = some (benchParams.opc.ramwr, []) ∧
    (streaming (some (0, 0))).half = none ∧ (streaming (some (0, 0))).xs = some 0 ∧
    (streaming (some (0, 0))).xe = some 1 ∧ (streaming (some (0, 0))).ye = some 1 ∧
    seen (fun t => t.periph.wp) (exec (.pixels [1, 2]) (benchPeriph (streaming (some (0, 0))))) = some (some (1, 0)) ∧
    seen (fun t => t.periph.wp) (exec (.pixels [1, 2]) (benchPeriph (streaming (some (1, 0))))) = some (some (0, 1)) ∧
    seen (fun t => t.periph.wp) (exec (.pixels [1, 2]) (benchPeriph (streaming (some (1, 1))))) = some none := by decide

theorem witness_HalfPixelAndOverrun :
    bench.params.wf ∧ LinkOk 1 (benchPeriph (streaming none)) ∧ (streaming none).pmode = .awake ∧
    (streaming none).cur = some (benchParams.opc.ramwr, []) ∧ (streaming none).half = none ∧
    (streaming none).wp = none ∧ (streaming (some (1, 1))).wp = some (1, 1) := by decide

theorem witness_InitialiseBringsTheControllerUp :
    bench.params.wf ∧ LinkOk (if bench.cfg.invert then 6 else 5) bench := by decide

theorem witness_OnlyResetLowLeavesUnknown :
    ({} : Periph).pmode = .unknown ∧ Event.rst .low ∉ [.rst .high, .wait .rstSettle, .dc .C, .tx 0x29] := by decide

theorem witness_BytesOutOfPlaceLoseMeaning :
    (({ pmode := .swResetWait } : Periph).pmode ≠ .sleep ∧ ({ pmode := .swResetWait } : Periph).pmode ≠ .awake) ∧
    ({ bench.periph with half := some 0xF8 } : Periph).half.isSome = true ∧
    ({ bench.periph with cur := some (0x2A, [0, 0, 0]) } : Periph).midCommand benchParams.opc = true ∧
    ({ pmode := .sleep } : Periph).cur = none := by decide

/-- All five operations succeed, on a panel of two by one. -/
theorem witness_SuccessKeepsTheControllerKnown :
    (benchPanel 2 1).params.wf ∧ (benchPanel 2 1).cfg.wf ∧ Attentive (benchPanel 2 1) ∧
    (benchPanel 2 1).periph.pixfmt.isSome = true ∧
    seen State.results (exec (.setOrientation .landscape) (benchPanel 2 1)) = some [.ok] ∧
    seen State.results (exec (.setOffset 1 1) (benchPanel 2 1)) = some [.ok] ∧
    seen State.results (exec (.clear 0xFFFF) (benchPanel 2 1)) = some [.ok] ∧
    seen State.results (exec (.draw 0 0 2 [1, 2, 3, 4]) (benchPanel 2 1)) = some [.ok] ∧
    seen State.results (exec (.setWindow 1 0 1 0) (benchPanel 2 1)) = some [.ok] := by decide

theorem witness_DrawFillsItsRectangle :
    bench.params.wf ∧ bench.cfg.wf ∧ Attentive bench ∧ bench.periph.pixfmt.isSome = true ∧ bench.fsm = .ready ∧
    WellShaped bmp4 2 ∧ InPanel bench.cfg 126 158 127 159 ∧ LinkOk 6 bench := by decide

theorem witness_ClearFillsThePanel :
    bench.params.wf ∧ bench.cfg.wf ∧ Attentive bench ∧ bench.periph.pixfmt.isSome = true ∧ bench.fsm = .ready ∧
    bench.offset = { dx := 0, dy := 0 } ∧ LinkOk 6 bench := by decide

theorem witness_PixelStreamMayBeSplit : bench.fsm = .ready ∧ LinkOk 2 bench := by decide

/-- A step that runs an operation, from a state that meets the five invariants: the premises of StepsKeepChipSelectReleased,
StepsKeepTheTraceWellFramed, StepsKeepFrameMemoryCanonical, StepsKeepResetReleased and StepsKeepUnknownForgotten, and of
ConfigurationIsImmutable and OnlyTheNineCommandBytes. -/
theorem witness_StepsKeep :
    let s := present (.request { op := 2, a := 3 }) bench
    s.params.wf ∧ Idle s ∧ WellFramed s.trace ∧ s.periph.fm.wf ∧ ResetReleased s ∧ Forgotten s ∧
    seen State.trace (step s) = some (wireC 0x36 ++ wireD [0xC0]) := by decide

theorem witness_ConstructionValues :
    PanelCfg.wf { width := 1, height := 65535, bgr := true, invert := true } ∧
    PanelCfg.wf { width := 65535, height := 1, bgr := true, invert := true } ∧
    ¬ PanelCfg.wf { width := 0, height := 1, bgr := false, invert := false } ∧
    ¬ PanelCfg.wf { width := 1, height := 65536, bgr := false, invert := false } := by decide

/-- Each case of the transitions: RESET, INITIALIZE done, INITIALIZE failed, another operation. -/
theorem witness_LifecycleTransitions :
    seen State.fsm (exec .reset bench) = some .awaitingInit ∧ seen State.fsm (exec .initialise bench) = some .ready ∧
    seen State.fsm (exec .initialise (benchLink [.fault 0])) = some .awaitingInit ∧
    seen State.fsm (exec (.clear 0) (benchLink [.fault 0])) = some .ready := by decide

theorem witness_OnlySettersWriteOrientAndOffset :
    (∀ o, Instr.setOffset 1 2 ≠ .setOrientation o) ∧ (∀ dx dy, Instr.setOrientation .inverted ≠ .setOffset dx dy) ∧
    seen State.orient (exec (.setOffset 1 2) bench) = some .normal ∧
    seen State.offset (exec (.setOrientation .inverted) bench) = some { dx := 0, dy := 0 } := by
  refine ⟨?_, ?_, rfl, rfl⟩ <;> intros <;> simp

theorem witness_OperationsAppendEventsAndOneResult :
    seen (fun t => (t.trace.length, t.results.length)) (exec (.writePixels [1]) bench) = some (4, 1) := by decide

theorem witness_OnlyResetsDriveTheResetLine :
    Instr.sendPix [1] ≠ .reset ∧ Instr.sendPix [1] ≠ .initialise ∧ Instr.sendPix [1] ≠ .hwReset ∧
    seen State.rst (exec (.sendPix [1]) bench) = some .high := by decide

theorem witness_OrientationLeaksNowhere :
    seen State.trace (exec (.draw 0 0 2 bmp4) { bench with orient := .landscape }) =
      seen State.trace (exec (.draw 0 0 2 bmp4) bench) := rfl

theorem witness_InitialiseTwiceSendsTheSame :
    LinkOk (if bench.cfg.invert then 12 else 10) bench ∧
    LinkOk (if (true : Bool) then 12 else 10) { bench with cfg := { bench.cfg with invert := true } } := by decide

end Sys2Proof.Machine
end

section
/-! PROOFS. What the machine does in one step, said once: which operation the decoder hands it, that every such operation
breaks nothing (`Steady`) and answers with one result; and from these the statements of spec/00_scope.md. -/

namespace Sys2Proof.Machine

/-! ### The step -/

theorem fetch_nil {s : State} (h : s.inputs = []) : fetch s = none := by
  simp [fetch, h]

theorem fetch_cons {s : State} {x : Input} {rest : List Input} (h : s.inputs = x :: rest) :
    fetch s = some (decode s.params x, { s with inputs := rest }) := by
  simp [fetch, h]

theorem step_idle {s : State} (h : s.inputs = []) : step s = .next s := by
  simp [step, fetch_nil h]

theorem step_instr {s : State} {x : Input} {rest : List Input} {i : Instr} (h : s.inputs = x :: rest)
    (hd : decode s.params x = .instr i) : step s = exec i { s with inputs := rest } := by
  simp [step, fetch_cons h, hd]

theorem step_rejected {s : State} {x : Input} {rest : List Input} {r : Reject} (h : s.inputs = x :: rest)
    (hd : decode s.params x = .rejected r) : step s = .refused (.spellsNoOperation r) := by
  simp [step, fetch_cons h, hd]

/-- A step with a next state idles, or runs the operation the next input decodes to. -/
theorem step_cases {s t : State} (h : step s = .next t) :
    (s.inputs = [] ∧ t = s) ∨
    ∃ x rest i, s.inputs = x :: rest ∧ decode s.params x = .instr i ∧ exec i { s with inputs := rest } = .next t := by
  cases hin : s.inputs with
  | nil =>
    rw [step_idle hin] at h
    cases h
    exact .inl ⟨rfl, rfl⟩
  | cons x rest =>
    cases hd : decode s.params x with
    | instr i => exact .inr ⟨x, rest, i, rfl, hd, by rwa [step_instr hin hd] at h⟩
    | rejected r =>
      rw [step_rejected hin hd] at h
      cases h

/-! ### No input spells an internal operation (spec/30_encoding.md R66) -/

/-- Each selector gives a host operation or is rejected; selector 2 asks the orientation code first. -/
theorem decodeRequest_internal {r : Request} {i : Instr} (h : decodeRequest r = .instr i) : i.internal = false := by
  unfold decodeRequest at h
  split_ifs at h
  on_goal 3 => split at h
  all_goals cases h <;> rfl

/-- Each of the nine commands gives a wire command or is rejected; MADCTL asks for one of its four bytes first. -/
theorem decodeCommand_internal {q : Params} {k : Command} {args : List Byte} {i : Instr}
    (h : decodeCommand q k args = .instr i) : i.internal = false := by
  unfold decodeCommand at h
  split at h
  case h_6 => split_ifs at h; cases h; rfl
  case h_10 => cases h
  all_goals cases h; rfl

theorem decodeFrame_internal {q : Params} {f : Frame} {i : Instr} (h : decodeFrame q f = .instr i) :
    i.internal = false := by
  unfold decodeFrame at h
  split at h
  · split at h
    · cases h
    · split_ifs at h
      exact decodeCommand_internal h
  · split_ifs at h
    cases h
    rfl

theorem decode_internal {q : Params} {x : Input} {i : Instr} (h : decode q x = .instr i) : i.internal = false := by
  cases x with
  | request r => exact decodeRequest_internal h
  | frame f => exact decodeFrame_internal h

/-! ### Every operation the decoder yields breaks nothing -/

theorem steady_resetOp : IsSteady resetOp := by
  refine steady_runLines fun f hf => ?_
  simp only [List.mem_cons, List.not_mem_nil, or_false] at hf
  rcases hf with rfl | rfl
  · exact steady_hwReset
  · exact steady_line (steady_setFsm _)

theorem steady_initCommands {q : Params} {c : PanelCfg} {f : Op} (hf : f ∈ initCommands q c) : IsSteady f := by
  simp only [initCommands, List.mem_cons, List.not_mem_nil, or_false] at hf
  rcases hf with rfl | rfl | rfl | rfl | rfl | rfl | rfl
  case inr.inl | inr.inr.inr.inl => exact steady_line (steady_delay _)
  case inr.inr.inr.inr.inr.inl =>
    split_ifs
    · exact steady_sendCmd _ _
    · exact steady_line Steady.refl
  all_goals exact steady_sendCmd _ _

theorem steady_initOp : IsSteady initOp := by
  intro s
  refine steady_runLines (fun f hf => ?_) s
  simp only [List.mem_append, List.mem_cons, List.not_mem_nil, or_false] at hf
  rcases hf with ((rfl | rfl) | hf) | rfl
  · exact steady_hwReset
  · exact steady_line (steady_setFsm _)
  · exact steady_initCommands hf
  · exact steady_line (steady_setFsm _)

/-- Two lines, each of which breaks nothing. -/
theorem steady_pair {f g : Op} (hf : IsSteady f) (hg : IsSteady g) : IsSteady (runLines [f, g]) :=
  steady_runLines (by simpa using ⟨hf, hg⟩)

theorem steady_setOrientationOp (o : Orientation) : IsSteady (setOrientationOp o) :=
  steady_whenReady fun s => steady_pair (steady_sendCmd _ _) (steady_line (steady_setOrient o)) s

theorem steady_clearOp (color : Half) : IsSteady (clearOp color) :=
  steady_whenReady fun s => steady_pair (steady_setWindowOp _) (steady_sendPix _) s

theorem steady_drawOp (x y roww : Half) (bytes : List Byte) : IsSteady (drawOp x y roww bytes) :=
  steady_whenReady fun s => by
    split
    · exact steady_raise _ s
    · exact steady_pair (steady_setWindowOp _) (steady_sendPix _) s

/-- From `s` to `t` an operation has run that broke nothing, and its result was handed over. -/
def Answered (s t : State) : Prop := ∃ u r, Steady s u ∧ t = respond (u, r)

theorem perform_answered {f : Op} {s t : State} (hf : IsSteady f) (h : perform f s = .next t) : Answered s t := by
  cases h
  exact ⟨(f s).1, (f s).2, hf s, rfl⟩

/-- An instruction that is not internal breaks nothing and gives one result. -/
theorem exec_answered {i : Instr} {s t : State} (hi : i.internal = false) (h : exec i s = .next t) : Answered s t := by
  cases i with
  | reset => exact perform_answered steady_resetOp h
  | initialise => exact perform_answered steady_initOp h
  | setOrientation o => exact perform_answered (steady_setOrientationOp o) h
  | setOffset dx dy => exact perform_answered (steady_line (steady_writeOffset dx dy)) h
  | setWindow x0 y0 x1 y1 => exact perform_answered (steady_setWindowOp _) h
  | writePixels bytes => exact perform_answered (steady_whenReady (steady_sendPix bytes)) h
  | clear color => exact perform_answered (steady_clearOp color) h
  | draw x y roww bytes => exact perform_answered (steady_drawOp x y roww bytes) h
  | reservedHost r => cases h
  | busWrite bs => cases hi
  | hwReset => cases hi
  | sendCmd op args => cases hi
  | sendPix bytes => cases hi
  | pixels bytes => exact perform_answered (steady_sendPix bytes) h
  | swreset | slpout | invon | dispon | caset | raset | ramwr | madctl | pixfmt =>
    exact perform_answered (steady_sendCmd _ _) h

/-- A step idles, or takes an input and answers it, breaking nothing. -/
theorem step_answered {s t : State} (h : step s = .next t) :
    (s.inputs = [] ∧ t = s) ∨ ∃ x rest, s.inputs = x :: rest ∧ Answered { s with inputs := rest } t := by
  rcases step_cases h with hidle | ⟨x, rest, i, hin, hd, he⟩
  · exact .inl hidle
  · exact .inr ⟨x, rest, hin, exec_answered (decode_internal hd) he⟩

/-! ### The statements -/

/-- Settles O53: a step idles or runs an operation that breaks nothing, and `Steady` fixes both records. -/
theorem configurationIsImmutable : Obligations.ConfigurationIsImmutable := by
  intro s t h
  rcases step_answered h with ⟨-, rfl⟩ | ⟨x, rest, -, u, r, hu, rfl⟩
  · exact ⟨rfl, rfl⟩
  · exact ⟨hu.cfg, hu.params⟩

/-- Settles O6. For a host request this is the rule's; that a wire frame is run as an input is log 7's. -/
theorem stepRunsDecodedOperation : Obligations.StepRunsDecodedOperation := by
  intro s x rest i hin hd _
  exact step_instr hin hd

end Sys2Proof.Machine
end

section
/-! PROOFS. Which of the block's registers an operation writes (spec/10_state.md R13 to R16), said once for every
instruction (`exec_effect`): bus traffic writes none, a setter its own, and a reset leaves the reset line high. From it,
and from `step_answered`, the statements of spec/10_state.md about one run. -/

namespace Sys2Proof.Machine

/-! ### What a sequence of lines keeps -/

theorem andThen_keeps {P : State → Prop} {f g : Op} {s : State} (hf : P (f s).1) (hg : ∀ t, P t → P (g t).1) :
    P (andThen f g s).1 := by
  cases hr : f s with
  | mk t r =>
    rw [hr] at hf
    cases r with
    | ok => rw [andThen_ok hr]; exact hg t hf
    | err k => rw [andThen_err hr]; exact hf

theorem runLines_keeps {P : State → Prop} {fs : List Op} {s : State} (h : ∀ f ∈ fs, ∀ t, P t → P (f t).1)
    (hs : P s) : P (runLines fs s).1 := by
  induction fs generalizing s with
  | nil => exact hs
  | cons f fs ih =>
    exact andThen_keeps (h f List.mem_cons_self s hs) fun t ht => ih (fun g hg => h g (List.mem_cons_of_mem _ hg)) ht

/-! ### Traffic writes no register -/

/-- From `s` to `t` no register is written and the reset line is not driven. -/
structure Quiet (s t : State) : Prop where
  rst : t.rst = s.rst
  fsm : t.fsm = s.fsm
  orient : t.orient = s.orient
  offset : t.offset = s.offset
  trace : ∃ es, t.trace = s.trace ++ es ∧ ∀ l, .rst l ∉ es

theorem Quiet.refl (s : State) : Quiet s s :=
  { rst := rfl, fsm := rfl, orient := rfl, offset := rfl, trace := ⟨[], by simp⟩ }

theorem Quiet.trans {s t u : State} (h : Quiet s t) (g : Quiet t u) : Quiet s u := by
  obtain ⟨es, he, hes⟩ := h.trace
  obtain ⟨fs, hf, hfs⟩ := g.trace
  exact
    { rst := g.rst.trans h.rst, fsm := g.fsm.trans h.fsm, orient := g.orient.trans h.orient
      offset := g.offset.trans h.offset
      trace := ⟨es ++ fs, by rw [hf, he, List.append_assoc], fun l => by simp [hes l, hfs l]⟩ }

/-- An operation that is quiet from any state. -/
def IsQuiet (f : Op) : Prop := ∀ s, Quiet s (f s).1

theorem quiet_andThen {f g : Op} (hf : IsQuiet f) (hg : IsQuiet g) : IsQuiet (andThen f g) :=
  fun s => andThen_keeps (P := Quiet s) (hf s) fun t ht => ht.trans (hg t)

theorem quiet_runLines {fs : List Op} (h : ∀ f ∈ fs, IsQuiet f) : IsQuiet (runLines fs) :=
  fun s => runLines_keeps (P := Quiet s) (fun f hf t ht => ht.trans (h f hf t)) (Quiet.refl s)

theorem quiet_whenReady {f : Op} (h : IsQuiet f) : IsQuiet (whenReady f) := by
  intro s
  by_cases hr : s.fsm = .ready
  · rw [whenReady_ready hr]; exact h s
  · rw [whenReady_early hr]; exact Quiet.refl s

theorem quiet_delay (p : TimingParam) : IsQuiet (line (delay p)) := fun s =>
  { Quiet.refl s with trace := ⟨[.wait p], rfl, by simp⟩ }

theorem quiet_driveDc (m : DcMode) (s : State) : Quiet s (driveDc m s) :=
  { Quiet.refl s with trace := ⟨[.dc m], rfl, by simp⟩ }

/-- The transfer goes out whole, or a fault cuts it off. -/
theorem quiet_busWrite (bs : List Byte) : IsQuiet (busWrite bs) := by
  intro s
  have sent (cs : List Byte) : Quiet s (s.sent (transactionEvents cs) s.dc 1) :=
    { Quiet.refl s with trace := ⟨transactionEvents cs, rfl, by simp [transactionEvents]⟩ }
  rcases busWrite_cases bs s with h | ⟨k, -, h⟩ <;> rw [h]
  · exact sent bs
  · exact { sent (bs.take k) with }

theorem quiet_transfer (m : DcMode) (bs : List Byte) : IsQuiet fun s => busWrite bs (driveDc m s) :=
  fun s => (quiet_driveDc m s).trans (quiet_busWrite bs _)

theorem quiet_sendPix (bytes : List Byte) : IsQuiet (sendPix bytes) := quiet_transfer .D bytes

theorem quiet_sendCmd (op : Byte) (args : List Byte) : IsQuiet (sendCmd op args) := by
  refine quiet_andThen (quiet_transfer .C [op]) ?_
  split_ifs
  · exact Quiet.refl
  · exact quiet_transfer .D args

theorem quiet_setWindowOp (w : Window) : IsQuiet (setWindowOp w) :=
  quiet_whenReady fun s => by
    split_ifs
    · exact quiet_runLines (by simp [quiet_sendCmd]) s
    · exact Quiet.refl s

/-- The lines CLEAR and DRAW share: the window, then the stream. -/
theorem quiet_fillWindow (w : Window) (bytes : List Byte) : IsQuiet (runLines [setWindowOp w, sendPix bytes]) :=
  quiet_runLines (by simp [quiet_setWindowOp, quiet_sendPix])

theorem quiet_clearOp (color : Half) : IsQuiet (clearOp color) :=
  quiet_whenReady fun s => quiet_fillWindow _ _ s

theorem quiet_drawOp (x y roww : Half) (bytes : List Byte) : IsQuiet (drawOp x y roww bytes) :=
  quiet_whenReady fun s => by
    split
    · exact Quiet.refl s
    · exact quiet_fillWindow _ _ s

theorem quiet_initCommands {q : Params} {c : PanelCfg} {f : Op} (hf : f ∈ initCommands q c) : IsQuiet f := by
  simp only [initCommands, List.mem_cons, List.not_mem_nil, or_false] at hf
  rcases hf with rfl | rfl | rfl | rfl | rfl | rfl | rfl
  case inr.inl | inr.inr.inr.inl => exact quiet_delay _
  case inr.inr.inr.inr.inr.inl =>
    split_ifs
    · exact quiet_sendCmd _ _
    · exact Quiet.refl
  all_goals exact quiet_sendCmd _ _

/-! ### A reset leaves the reset line high -/

/-- From `s` to `t` the reset line has been released and the setters' registers are as they were; `fsm` is left open. -/
structure Pulsed (s t : State) : Prop where
  rst : t.rst = .high
  orient : t.orient = s.orient
  offset : t.offset = s.offset

theorem Pulsed.setFsm {s t : State} (h : Pulsed s t) (f : Fsm) : Pulsed s (setFsm f t) := { h with }

theorem Pulsed.quiet {s t u : State} (h : Pulsed s t) (g : Quiet t u) : Pulsed s u :=
  ⟨g.rst.trans h.rst, g.orient.trans h.orient, g.offset.trans h.offset⟩

theorem pulsed_hwReset (s : State) : Pulsed s (hwReset s).1 := by
  rw [hwReset_eq]
  exact ⟨rfl, rfl, rfl⟩

/-- The hardware reset, then lines that keep what it did. -/
theorem pulsed_runLines {s : State} {fs : List Op} (h : ∀ f ∈ fs, ∀ t, Pulsed s t → Pulsed s (f t).1) :
    Pulsed s (runLines (hwReset :: fs) s).1 :=
  andThen_keeps (pulsed_hwReset s) fun _ => runLines_keeps h

theorem pulsed_resetOp (s : State) : Pulsed s (resetOp s).1 := by
  refine pulsed_runLines fun f hf t ht => ?_
  obtain rfl := List.mem_singleton.mp hf
  exact ht.setFsm _

theorem initOp_eq (s : State) :
    initOp s = runLines
      (hwReset :: line (setFsm .awaitingInit) :: (initCommands s.params s.cfg ++ [line (setFsm .ready)])) s := rfl

theorem pulsed_initOp (s : State) : Pulsed s (initOp s).1 := by
  rw [initOp_eq]
  refine pulsed_runLines fun f hf t ht => ?_
  simp only [List.mem_cons, List.mem_append, List.not_mem_nil, or_false] at hf
  rcases hf with rfl | hf | rfl
  · exact ht.setFsm _
  · exact ht.quiet (quiet_initCommands hf t)
  · exact ht.setFsm _

/-! ### What each instruction writes -/

/-- SET_ORIENTATION is quiet but for `orient`, whether or not it comes to record it. -/
theorem quiet_setOrientationOp (o : Orientation) (s : State) :
    Quiet s { (setOrientationOp o s).1 with orient := s.orient } := by
  unfold setOrientationOp
  by_cases hr : s.fsm = .ready
  · rw [whenReady_ready hr]
    exact andThen_keeps (P := fun t => Quiet s { t with orient := s.orient })
      { quiet_sendCmd _ _ s with orient := rfl } fun _ ht => ht
  · rw [whenReady_early hr]
    exact Quiet.refl s

/-- What `i` may have done to `rst`, `fsm`, `orient` and `offset` from `s` to `t`; where a reset leaves `fsm` is not said. -/
def Effect (i : Instr) (s t : State) : Prop :=
  match i with
  | .reset | .initialise | .hwReset => Pulsed s t
  | .setOrientation _ => Quiet s { t with orient := s.orient }
  | .setOffset _ _ => Quiet s { t with offset := s.offset }
  | _ => Quiet s t

theorem quiet_perform {f : Op} {s t : State} (hf : IsQuiet f) (h : perform f s = .next t) : Quiet s t := by
  cases h
  exact { hf s with }

/-- What an instruction may do to the block's registers, whatever its result. -/
theorem exec_effect {i : Instr} {s t : State} (h : exec i s = .next t) : Effect i s t := by
  cases i with
  | reset => cases h; exact { pulsed_resetOp s with }
  | initialise => cases h; exact { pulsed_initOp s with }
  | hwReset => cases h; exact { pulsed_hwReset s with }
  | setOrientation o => cases h; exact { quiet_setOrientationOp o s with }
  | setOffset dx dy => cases h; exact { Quiet.refl s with }
  | setWindow x0 y0 x1 y1 => exact quiet_perform (quiet_setWindowOp _) h
  | writePixels bytes => exact quiet_perform (quiet_whenReady (quiet_sendPix bytes)) h
  | clear color => exact quiet_perform (quiet_clearOp color) h
  | draw x y roww bytes => exact quiet_perform (quiet_drawOp x y roww bytes) h
  | reservedHost r => cases h
  | busWrite bs => exact quiet_perform (quiet_busWrite bs) h
  | sendPix bytes | pixels bytes => exact quiet_perform (quiet_sendPix bytes) h
  | sendCmd | swreset | slpout | invon | dispon | caset | raset | ramwr | madctl | pixfmt =>
    exact quiet_perform (quiet_sendCmd _ _) h

/-- A reset ends with the reset line high, and every other operation keeps both `fsm` and `rst`, whatever the link
does. -/
theorem exec_resetReleased {i : Instr} {s t : State} (hs : ResetReleased s) (h : exec i s = .next t) :
    ResetReleased t := by
  have e := exec_effect h
  intro hf
  cases i with
  | reset | initialise | hwReset => exact e.rst
  | _ => exact e.rst.trans (hs (e.fsm ▸ hf))

/-! ### The statements -/

/-- Settles O46: a step idles or runs an operation that breaks nothing, and `Steady` keeps chip-select released. -/
theorem stepsKeepChipSelectReleased : Obligations.StepsKeepChipSelectReleased := by
  intro s t hs h
  rcases step_answered h with ⟨-, rfl⟩ | ⟨x, rest, -, u, r, hu, rfl⟩
  · exact hs
  · exact hu.cs hs

/-- Settles O49: a step idles or runs one operation, and no operation breaks the invariant. -/
theorem stepsKeepResetReleased : Obligations.StepsKeepResetReleased := by
  intro s t hs h
  rcases step_cases h with ⟨-, rfl⟩ | ⟨x, rest, i, -, -, he⟩
  · exact hs
  · exact exec_resetReleased (s := { s with inputs := rest }) hs he

/-- Settles O54: read off `exec_effect`, whatever the result. -/
theorem onlySettersWriteOrientAndOffset : Obligations.OnlySettersWriteOrientAndOffset := by
  intro s t i h
  have e := exec_effect h
  refine ⟨fun hi => ?_, fun hi => ?_⟩
  · cases i with
    | setOrientation o => exact absurd rfl (hi o)
    | _ => exact e.orient
  · cases i with
    | setOffset dx dy => exact absurd rfl (hi dx dy)
    | _ => exact e.offset

/-- Settles O57: every instruction but the three leaves `rst` alone and appends events none of which is an RST. -/
theorem onlyResetsDriveTheResetLine : Obligations.OnlyResetsDriveTheResetLine := by
  intro s t i hr hi hh h
  have e := exec_effect h
  cases i with
  | reset => exact absurd rfl hr
  | initialise => exact absurd rfl hi
  | hwReset => exact absurd rfl hh
  | _ => exact ⟨e.rst, e.trace⟩

/-- Settles O50: nothing is known of the controller, nothing has been sent, and the block is Uninitialized. -/
theorem resetMeetsTheInvariants : Obligations.ResetMeetsTheInvariants :=
  ⟨rfl, rfl, empty_wf, fun h => absurd rfl h, fun _ => rfl⟩

theorem construct_of_wf {c : PanelCfg} (h : c.wf) (q : Params) : State.construct c q = .next (State.initial c q) :=
  if_pos h

theorem construct_of_not_wf {c : PanelCfg} (h : ¬ c.wf) (q : Params) : State.construct c q = .refused .noBlock :=
  if_neg h

/-- Settles O51: inside the invariant construction gives `State.initial`, outside it no block. -/
theorem constructionValues : Obligations.ConstructionValues :=
  fun c q => ⟨fun h => ⟨State.initial c q, construct_of_wf h q, rfl, rfl, rfl, rfl, rfl, rfl, rfl⟩,
    fun h => construct_of_not_wf h q⟩

end Sys2Proof.Machine
end

section
/-! PROOFS. No operation reads `orient` (spec/10_state.md R15): run with another orientation it does the same and ends
the same, but for the orientation it may leave; said once for the shared operations and closed under sequencing. -/

namespace Sys2Proof.Machine

/-- Whatever orientation `f` starts from, it leaves the same state but for `orient` and returns the same result. -/
def OrientBlind (f : Op) : Prop :=
  ∀ (s : State) (o : Orientation), ∃ o', f (setOrient o s) = (setOrient o' (f s).1, (f s).2)

theorem blind_delay (p : TimingParam) : OrientBlind (line (delay p)) := fun _ o => ⟨o, rfl⟩

theorem blind_setFsm (x : Fsm) : OrientBlind (line (setFsm x)) := fun _ o => ⟨o, rfl⟩

theorem blind_writeOffset (dx dy : Half) : OrientBlind (line (writeOffset dx dy)) := fun _ o => ⟨o, rfl⟩

theorem blind_setOrient (x : Orientation) : OrientBlind (line (setOrient x)) := fun _ _ => ⟨x, rfl⟩

theorem blind_nothing : OrientBlind (line id) := fun _ o => ⟨o, rfl⟩

theorem blind_hwReset : OrientBlind hwReset := fun _ o => ⟨o, rfl⟩

theorem blind_raise (k : ErrKind) : OrientBlind (raise k) := fun _ o => ⟨o, rfl⟩

theorem blind_andThen {f g : Op} (hf : OrientBlind f) (hg : OrientBlind g) : OrientBlind (andThen f g) := by
  intro s o
  obtain ⟨o', h⟩ := hf s o
  cases hr : f s with
  | mk t r =>
    rw [hr] at h
    cases r with
    | ok => rw [andThen_ok h, andThen_ok hr]; exact hg t o'
    | err k => exact ⟨o', by rw [andThen_err h, andThen_err hr]⟩

theorem blind_runLines {fs : List Op} (h : ∀ f ∈ fs, OrientBlind f) : OrientBlind (runLines fs) := by
  induction fs with
  | nil => exact blind_nothing
  | cons f fs ih =>
    exact blind_andThen (h f List.mem_cons_self) (ih fun g hg => h g (List.mem_cons_of_mem _ hg))

theorem blind_pair {f g : Op} (hf : OrientBlind f) (hg : OrientBlind g) : OrientBlind (runLines [f, g]) :=
  blind_runLines (by simp [hf, hg])

theorem blind_whenReady {f : Op} (h : OrientBlind f) : OrientBlind (whenReady f) := by
  intro s o
  by_cases hr : s.fsm = .ready
  · rw [whenReady_ready hr, whenReady_ready (s := setOrient o s) hr]
    exact h s o
  · rw [whenReady_early hr, whenReady_early (s := setOrient o s) hr]
    exact ⟨o, rfl⟩

/-- The draw does not depend on the orientation, and the transfer is the same under the same draw. -/
theorem blind_busWrite (bs : List Byte) : OrientBlind (busWrite bs) := by
  intro s o
  have hd : outcome bs.length (setOrient o s) = outcome bs.length s := rfl
  rw [busWrite_eq, busWrite_eq, hd]
  cases outcome bs.length s <;> exact ⟨o, rfl⟩

theorem blind_transfer (m : DcMode) (bs : List Byte) : OrientBlind fun s => busWrite bs (driveDc m s) :=
  fun s => blind_busWrite bs (driveDc m s)

theorem blind_sendPix (bytes : List Byte) : OrientBlind (sendPix bytes) := blind_transfer .D bytes

theorem blind_sendCmd (op : Byte) (args : List Byte) : OrientBlind (sendCmd op args) := by
  refine blind_andThen (blind_transfer .C [op]) ?_
  split_ifs
  · exact blind_nothing
  · exact blind_transfer .D args

theorem blind_programWindow (w : Window) : OrientBlind (programWindow w) :=
  fun s o => blind_runLines (by simp [blind_sendCmd]) s o

theorem blind_setWindowOp (w : Window) : OrientBlind (setWindowOp w) :=
  blind_whenReady fun s o => by
    by_cases hi : insidePanel s.cfg (relocate s.offset w) = true
    · simpa [hi] using blind_programWindow (relocate s.offset w) s o
    · simpa [hi] using blind_raise .boundsError s o

/-- The lines CLEAR and DRAW share: the window, then the stream. -/
theorem blind_fillWindow (w : Window) (bytes : List Byte) : OrientBlind (runLines [setWindowOp w, sendPix bytes]) :=
  blind_pair (blind_setWindowOp w) (blind_sendPix bytes)

theorem blind_clearOp (color : Half) : OrientBlind (clearOp color) :=
  blind_whenReady fun s o => blind_fillWindow (fullPanel s.cfg) (colourBytes (s.cfg.width * s.cfg.height) color) s o

theorem blind_drawOp (x y roww : Half) (bytes : List Byte) : OrientBlind (drawOp x y roww bytes) :=
  blind_whenReady <| by
    cases bitmapShape bytes roww with
    | none => exact blind_raise _
    | some shape => exact fun s => blind_fillWindow _ _ s

theorem blind_setOrientationOp (x : Orientation) : OrientBlind (setOrientationOp x) :=
  blind_whenReady fun s o =>
    blind_pair (blind_sendCmd s.params.opc.madctl [madctlArgOf s.params x]) (blind_setOrient x) s o

theorem blind_resetOp : OrientBlind resetOp := blind_pair blind_hwReset (blind_setFsm _)

theorem blind_initCommands {q : Params} {c : PanelCfg} {f : Op} (hf : f ∈ initCommands q c) : OrientBlind f := by
  simp only [initCommands, List.mem_cons, List.not_mem_nil, or_false] at hf
  rcases hf with rfl | rfl | rfl | rfl | rfl | rfl | rfl
  case inr.inl | inr.inr.inr.inl => exact blind_delay _
  case inr.inr.inr.inr.inr.inl =>
    split_ifs
    · exact blind_sendCmd _ _
    · exact blind_nothing
  all_goals exact blind_sendCmd _ _

theorem blind_initOp : OrientBlind initOp := by
  intro s o
  rw [initOp_eq, initOp_eq]
  refine blind_runLines (fun f hf => ?_) s o
  simp only [List.mem_cons, List.mem_append, List.not_mem_nil, or_false] at hf
  rcases hf with rfl | rfl | hf | rfl
  · exact blind_hwReset
  · exact blind_setFsm _
  · exact blind_initCommands hf
  · exact blind_setFsm _

/-- A blind operation run to completion from another orientation. -/
theorem perform_blind {f : Op} {s t : State} {o : Orientation} (hf : OrientBlind f) (h : perform f s = .next t) :
    ∃ u, perform f (setOrient o s) = .next u ∧ u = { t with orient := u.orient } := by
  obtain ⟨o', hb⟩ := hf s o
  cases h
  exact ⟨_, rfl, by rw [hb]; rfl⟩

/-- Settles O58: every instruction's meaning is blind to `orient`. -/
theorem orientationLeaksNowhere : Obligations.OrientationLeaksNowhere := by
  intro s t i o h
  cases i with
  | reset => exact perform_blind blind_resetOp h
  | initialise => exact perform_blind blind_initOp h
  | setOrientation x => exact perform_blind (blind_setOrientationOp x) h
  | setOffset dx dy => exact perform_blind (blind_writeOffset dx dy) h
  | setWindow x0 y0 x1 y1 => exact perform_blind (blind_setWindowOp _) h
  | writePixels bytes => exact perform_blind (blind_whenReady (blind_sendPix bytes)) h
  | clear color => exact perform_blind (blind_clearOp color) h
  | draw x y roww bytes => exact perform_blind (blind_drawOp x y roww bytes) h
  | reservedHost r => cases h
  | busWrite bs => exact perform_blind (blind_busWrite bs) h
  | hwReset => exact perform_blind blind_hwReset h
  | sendPix bytes | pixels bytes => exact perform_blind (blind_sendPix bytes) h
  | sendCmd | swreset | slpout | invon | dispon | caset | raset | ramwr | madctl | pixfmt =>
    exact perform_blind (blind_sendCmd _ _) h

end Sys2Proof.Machine
end

section
/-! PROOFS. What no step breaks of frame memory, read off `Steady`; that every operation appends events and one result;
and what a byte without a taker does to the controller (spec/20_memory.md R40, R45, R52). -/

namespace Sys2Proof.Machine

/-- Settles O48: a step idles or runs an operation that breaks nothing, and `Steady` keeps the canonical form. -/
theorem stepsKeepFrameMemoryCanonical : Obligations.StepsKeepFrameMemoryCanonical := by
  intro s t hs h
  rcases step_answered h with ⟨-, rfl⟩ | ⟨x, rest, -, u, r, hu, rfl⟩
  · exact hs
  · exact hu.fm hs

/-- Settles O60: a step idles or runs an operation that breaks nothing, and `Steady` leaves no known cell behind in
`Unknown` (after a bus fault the spec's, after any other loss log 14's). -/
theorem stepsKeepUnknownForgotten : Obligations.StepsKeepUnknownForgotten := by
  intro s t hs h
  rcases step_answered h with ⟨-, rfl⟩ | ⟨x, rest, -, u, r, hu, rfl⟩
  · exact hs
  · exact hu.forgotten hs

/-! ### Events are appended, and one result -/

theorem Answered.appends {s t : State} (h : Answered s t) :
    (∃ es, t.trace = s.trace ++ es) ∧ ∃ r, t.results = s.results ++ [r] := by
  obtain ⟨u, r, hu, rfl⟩ := h
  obtain ⟨es, he, -⟩ := hu.trace
  exact ⟨⟨es, he⟩, r, by rw [respond_results, hu.results]⟩

/-- A BUSWRITE by itself appends one transaction, whole or cut off; without its drive of `dc` that piece is not well
framed, so it is not `Steady`. -/
theorem busWrite_appends (bs : List Byte) (s : State) :
    (∃ es, (busWrite bs s).1.trace = s.trace ++ es) ∧ (busWrite bs s).1.results = s.results := by
  rcases busWrite_cases bs s with h | ⟨k, -, h⟩ <;> rw [h]
  · exact ⟨⟨_, rfl⟩, rfl⟩
  · exact ⟨⟨_, rfl⟩, rfl⟩

/-- Settles O55: the internal operations but BUSWRITE are `Steady` like the rest. -/
theorem operationsAppendEventsAndOneResult : Obligations.OperationsAppendEventsAndOneResult := by
  intro s t i h
  cases i with
  | busWrite bs =>
    cases h
    obtain ⟨he, hr⟩ := busWrite_appends bs s
    exact ⟨he, _, by rw [respond_results, hr]⟩
  | hwReset => exact (perform_answered steady_hwReset h).appends
  | sendCmd op args => exact (perform_answered (steady_sendCmd op args) h).appends
  | sendPix bytes => exact (perform_answered (steady_sendPix bytes) h).appends
  | _ => exact (exec_answered rfl h).appends

/-! ### Bytes out of place -/

/-- In a phase that takes no bytes every byte loses the controller's meaning, under either mode. -/
theorem receive_deaf {p : Periph} (h : p.listens = false) (q : Params) (m : DcMode) (b : Byte) :
    p.receive q m b = p.lose := by
  cases m with
  | C => simp [Periph.receive, Periph.onCommandByte, h]
  | D => simp [Periph.receive, Periph.onDataByte, h]

theorem receive_command_midCommand {q : Params} {p : Periph} (h : p.midCommand q.opc = true) (b : Byte) :
    p.receive q .C b = p.lose := by
  simp [Periph.receive, Periph.onCommandByte, h]

theorem receive_command_halfPixel {p : Periph} (h : p.half.isSome) (q : Params) (b : Byte) :
    p.receive q .C b = p.lose := by
  simp [Periph.receive, Periph.onCommandByte, h]

theorem receive_data_idle {p : Periph} (h : p.cur = none) (q : Params) (b : Byte) : p.receive q .D b = p.lose := by
  simp [Periph.receive, Periph.onDataByte, h]

/-- Settles O41: each clause is one of the checks a byte has to pass. -/
theorem bytesOutOfPlaceLoseMeaning : Obligations.BytesOutOfPlaceLoseMeaning := by
  intro q p b
  refine ⟨fun hs ha m => ?_, fun hh => ?_, fun hm => ?_, fun hc => ?_⟩
  · have deaf : p.listens = false := by simp [Periph.listens, hs, ha]
    rw [receive_deaf deaf, lose_pmode]
  · rw [receive_command_halfPixel hh, lose_pmode]
  · rw [receive_command_midCommand hm, lose_pmode]
  · rw [receive_data_idle hc, lose_pmode]

/-- In `Unknown` every event but RST(0) leaves the controller there. -/
theorem onEvent_unknown {p : Periph} (hp : p.pmode = .unknown) (q : Params) (m : DcMode) {e : Event}
    (he : e ≠ .rst .low) : (p.onEvent q m e).pmode = .unknown := by
  cases e with
  | rst l =>
    cases l with
    | low => exact absurd rfl he
    | high => simp [Periph.onEvent, Periph.onRstHigh, hp]
  | dc m' => exact hp
  | cs a => exact hp
  | tx b =>
    have deaf : p.listens = false := by simp [Periph.listens, hp]
    rw [Periph.onEvent, receive_deaf deaf, lose_pmode]
  | wait w => simp [Periph.onEvent, Periph.onWait, hp]

/-- Settles O40, by induction on the trace. -/
theorem onlyResetLowLeavesUnknown : Obligations.OnlyResetLowLeavesUnknown := by
  intro q m p es hp hes
  induction es generalizing m p with
  | nil => exact hp
  | cons e es ih =>
    obtain ⟨he, hes⟩ := List.ne_and_not_mem_of_not_mem_cons hes
    exact ih _ _ (onEvent_unknown hp q m (Ne.symm he)) hes

end Sys2Proof.Machine
end

section
/-! PROOFS. One whole command sent to a controller that listens (spec/20_memory.md R45 to R50): on the wire it is its
frame, and the controller executes it, said once for all nine commands; what each execution does, said once per command;
and the pixel byte. From these the statements about the wire commands. -/

namespace Sys2Proof.Machine

/-! ### The nine commands at once -/

/-- The command byte of a command (spec/30_encoding.md R58). -/
def opcodeOf (c : Opcodes) (k : Command) : Byte :=
  match k with
  | .swreset => c.swreset
  | .slpout => c.slpout
  | .invon => c.invon
  | .dispon => c.dispon
  | .caset => c.caset
  | .raset => c.raset
  | .ramwr => c.ramwr
  | .madctl => c.madctl
  | .pixfmt => c.pixfmt

theorem commandOf_opcodeOf {q : Params} (hq : q.wf) (k : Command) : commandOf q.opc (opcodeOf q.opc k) = some k := by
  obtain ⟨hswreset, hslpout, hinvon, hdispon, hcaset, hraset, hramwr, hmadctl, hpixfmt⟩ := commandOf_opcodes hq.1
  cases k <;> assumption

/-- The three formats of a command: WC0, WC1, WC4 (spec/30_encoding.md R56). -/
theorem nargs_cases (k : Command) : nargs k = 0 ∨ nargs k = 1 ∨ nargs k = 4 := by
  cases k <;> decide

/-- A command with as many arguments as it takes, to a controller that listens between commands: it is executed with
exactly these. -/
theorem replay_whole {q : Params} {p : Periph} (m : DcMode) (hq : q.wf) (h : TakesCommand q p) {k : Command}
    {args : List Byte} (hn : args.length = nargs k) :
    p.replay q m (commandEvents (opcodeOf q.opc k) args) =
      Periph.execute q k args { p with cur := some (opcodeOf q.opc k, args) } := by
  have hk := commandOf_opcodeOf hq k
  rcases nargs_cases k with h0 | h1 | h4
  · obtain rfl := List.eq_nil_of_length_eq_zero (hn.trans h0)
    exact replay_command0 m h hk h0
  · obtain ⟨a, rfl⟩ := List.length_eq_one_iff.mp (hn.trans h1)
    exact replay_command1 m a h hk h1
  · match args, hn.trans h4 with
    | [a0, a1, a2, a3], _ => exact replay_command4 m a0 a1 a2 a3 h hk h4

/-- SENDCMD on a fault-free link: the whole frame goes out, in one transfer or two. -/
theorem sendCmd_ok {op : Byte} {args : List Byte} {s : State} (h : LinkOk (transfersOf args) s) :
    sendCmd op args s = (s.sent (commandEvents op args) (modeOfArgs args) (transfersOf args), .ok) := by
  by_cases ha : args = []
  · subst ha
    exact sendCmd_nil_ok (LinkOk.head (n := 0) h)
  · rw [transfersOf, if_neg ha] at h ⊢
    rw [modeOfArgs, if_neg ha]
    exact sendCmd_args_ok ha h

/-- A whole command as an operation: the frame on the wire, the command executed, and nothing else. -/
theorem perform_whole {s : State} (k : Command) (args : List Byte) (hq : s.params.wf) (hl : LinkOk (transfersOf args) s)
    (h : TakesCommand s.params s.periph) (hn : args.length = nargs k) {p : Periph}
    (he : Periph.execute s.params k args { s.periph with cur := some (opcodeOf s.params.opc k, args) } = p) :
    perform (sendCmd (opcodeOf s.params.opc k) args) s =
      .next (respond ({ s.sent (commandEvents (opcodeOf s.params.opc k) args) (modeOfArgs args) (transfersOf args) with
        periph := p }, .ok)) := by
  rw [perform, sendCmd_ok hl, ← he, ← replay_whole s.dc hq h hn]
  rfl

theorem takesCommand_of_attentive {s : State} (h : Attentive s) : TakesCommand s.params s.periph := by
  obtain ⟨hawake, hbetween, hwhole⟩ := h
  exact ⟨.inr hawake, hbetween, hwhole⟩

/-! ### What each command does (spec/20_memory.md R46 to R49) -/

section
variable {q : Params} {p : Periph}

theorem execute_swreset (h : p.pmode = .sleep ∨ p.pmode = .awake) :
    p.execute q .swreset [] = { p.forget with pmode := .swResetWait } := by
  rcases h with h | h <;> simp [Periph.execute, h]

theorem execute_slpout_asleep (h : p.pmode = .sleep) : p.execute q .slpout [] = { p with pmode := .wakeWait } := by
  simp [Periph.execute, h]

theorem execute_slpout_awake (h : p.pmode = .awake) : p.execute q .slpout [] = p.lose := by
  simp [Periph.execute, h]

theorem execute_invon (h : p.pmode = .awake) : p.execute q .invon [] = { p with inv := true } := by
  simp [Periph.execute, h]

theorem execute_dispon (h : p.pmode = .awake) : p.execute q .dispon [] = { p with on := true } := by
  simp [Periph.execute, h]

theorem execute_pixfmt {a : Byte} (h : p.pmode = .awake) : p.execute q .pixfmt [a] = { p with pixfmt := some a } := by
  simp [Periph.execute, h]

theorem execute_madctl_known {a : Byte} (h : p.pmode = .awake) (ha : a ∈ madctlBytes q) :
    p.execute q .madctl [a] = p.setMadctl a := by
  simp [Periph.execute, h, ha]

theorem execute_madctl_foreign {a : Byte} (h : p.pmode = .awake) (ha : a ∉ madctlBytes q) :
    p.execute q .madctl [a] = p.lose := by
  simp [Periph.execute, h, ha]

theorem execute_caset {a b : Half} (h : p.pmode = .awake) :
    p.execute q .caset [hiByte a, loByte a, hiByte b, loByte b] =
      { p with xs := some a, xe := some b, wp := none } := by
  simp [Periph.execute, h, hiByte_append_loByte]

theorem execute_raset {a b : Half} (h : p.pmode = .awake) :
    p.execute q .raset [hiByte a, loByte a, hiByte b, loByte b] =
      { p with ys := some a, ye := some b, wp := none } := by
  simp [Periph.execute, h, hiByte_append_loByte]

theorem execute_ramwr (h : p.pmode = .awake) : p.execute q .ramwr [] = p.prime := by
  simp [Periph.execute, h]

theorem prime_inside {xs xe ys ye : Half} (hxs : p.xs = some xs) (hxe : p.xe = some xe) (hys : p.ys = some ys)
    (hye : p.ye = some ye) (hf : p.pixfmt.isSome) (hh : p.half = none)
    (hin : xs.toNat ≤ xe.toNat ∧ ys.toNat ≤ ye.toNat) : p.prime = { p with wp := some (xs, ys) } := by
  obtain ⟨f, hf⟩ := Option.isSome_iff_exists.mp hf
  simp [Periph.prime, hxs, hxe, hys, hye, hf, hh, hin]

theorem prime_inverted {xs xe ys ye : Half} (hxs : p.xs = some xs) (hxe : p.xe = some xe) (hys : p.ys = some ys)
    (hye : p.ye = some ye) (hinv : xe.toNat < xs.toNat ∨ ye.toNat < ys.toNat) : p.prime = p.lose := by
  have hin : ¬ (xs.toNat ≤ xe.toNat ∧ ys.toNat ≤ ye.toNat) := by omega
  cases hf : p.pixfmt with
  | none => simp [Periph.prime, hf]
  | some f => simp only [Periph.prime, hxs, hxe, hys, hye, hf, if_neg hin]

theorem prime_unknown (h : p.xs = none ∨ p.xe = none ∨ p.ys = none ∨ p.ye = none ∨ p.pixfmt = none) :
    p.prime = p.lose := by
  unfold Periph.prime
  split
  case h_1 hxs hxe hys hye hf => simp [hxs, hxe, hys, hye, hf] at h
  case h_2 => rfl

/-- The first byte of a pixel, inside the window. -/
theorem onPixelByte_first {c : Half × Half} {xs xe ye : Half} (hh : p.half = none) (hwp : p.wp = some c)
    (hxs : p.xs = some xs) (hxe : p.xe = some xe) (hye : p.ye = some ye) (b : Byte) :
    p.onPixelByte b = { p with half := some b } := by
  simp [Periph.onPixelByte, hh, hwp, hxs, hxe, hye]

/-- A pixel byte past the window's last cell. -/
theorem onPixelByte_overrun (h : p.wp = none) (b : Byte) : p.onPixelByte b = p.lose := by
  simp [Periph.onPixelByte, h]

end

/-! ### The statements about the wire commands -/

/-- Settles O31. Which registers are forgotten is log 10's. -/
theorem softwareResetForgets : Obligations.SoftwareResetForgets :=
  fun _ hq hl hp hm hh => perform_whole .swreset [] hq hl ⟨hp, hm, hh⟩ rfl (execute_swreset hp)

/-- Settles O32. -/
theorem sleepOutWakesOnlyASleeper : Obligations.SleepOutWakesOnlyASleeper := by
  intro s hq hl hm hh
  refine ⟨fun hp => ?_, fun hp => ?_⟩
  · exact perform_whole .slpout [] hq hl ⟨.inl hp, hm, hh⟩ rfl (execute_slpout_asleep hp)
  · exact ⟨_, perform_whole .slpout [] hq hl ⟨.inr hp, hm, hh⟩ rfl (execute_slpout_awake hp), rfl⟩

/-- Settles O33. -/
theorem modeCommandsSetTheirRegister : Obligations.ModeCommandsSetTheirRegister := by
  intro s hq ha
  have ht := takesCommand_of_attentive ha
  obtain ⟨hawake, -, -⟩ := ha
  refine ⟨fun hl => ⟨?_, ?_⟩, fun hl a => ?_⟩
  · exact perform_whole .invon [] hq hl ht rfl (execute_invon hawake)
  · exact perform_whole .dispon [] hq hl ht rfl (execute_dispon hawake)
  · exact perform_whole .pixfmt [a] hq hl ht rfl (execute_pixfmt hawake)

/-- Settles O34: the four bytes have their effect, any other is foreign (logs 8, 13 and 14). -/
theorem memoryAccessControlForgetsOnChange : Obligations.MemoryAccessControlForgetsOnChange := by
  intro s a hq ha hl
  have ht := takesCommand_of_attentive ha
  obtain ⟨hawake, -, -⟩ := ha
  refine ⟨fun hmem => ?_, fun hmem => ?_⟩
  · exact perform_whole .madctl [a] hq hl ht rfl (execute_madctl_known hawake hmem)
  · exact ⟨_, perform_whole .madctl [a] hq hl ht rfl (execute_madctl_foreign hawake hmem), rfl, rfl⟩

theorem exec_caset_bytes (a b : Half) (s : State) :
    exec (.caset a b) s = perform (sendCmd s.params.opc.caset [hiByte a, loByte a, hiByte b, loByte b]) s := by
  rw [exec, execCaset, be16_toNat, be16_toNat]
  rfl

theorem exec_raset_bytes (a b : Half) (s : State) :
    exec (.raset a b) s = perform (sendCmd s.params.opc.raset [hiByte a, loByte a, hiByte b, loByte b]) s := by
  rw [exec, execRaset, be16_toNat, be16_toNat]
  rfl

/-- Settles O35: the four argument bytes are the halves of the two coordinates, joined again by the controller. -/
theorem windowCommandsSetTheWindow : Obligations.WindowCommandsSetTheWindow := by
  intro s a b hq ha hl
  have ht := takesCommand_of_attentive ha
  obtain ⟨hawake, -, -⟩ := ha
  rw [exec_caset_bytes, exec_raset_bytes]
  exact ⟨perform_whole .caset [hiByte a, loByte a, hiByte b, loByte b] hq hl ht rfl (execute_caset hawake),
    perform_whole .raset [hiByte a, loByte a, hiByte b, loByte b] hq hl ht rfl (execute_raset hawake)⟩

/-- Settles O36: the window is known and not inverted, or inverted, or not known. -/
theorem writeToRamPrimesThePointer : Obligations.WriteToRamPrimesThePointer := by
  intro s hq ha hl
  have ht := takesCommand_of_attentive ha
  obtain ⟨hawake, -, hwhole⟩ := ha
  have run {p : Periph} (hp : Periph.prime { s.periph with cur := some (s.params.opc.ramwr, []) } = p) :=
    perform_whole .ramwr [] hq hl ht rfl (Eq.trans (execute_ramwr hawake) hp)
  refine ⟨fun xs xe ys ye hxs hxe hys hye hf => ⟨fun hin => ?_, fun hinv => ?_⟩, fun hnone => ?_⟩
  · exact run (prime_inside hxs hxe hys hye hf hwhole hin)
  · exact ⟨_, run (prime_inverted hxs hxe hys hye hinv), rfl⟩
  · exact ⟨_, run (prime_unknown hnone), rfl⟩

/-! ### The pixel stream -/

/-- A pixel stream as an operation: the bytes on the wire, the controller receives them under D, and nothing else. -/
theorem exec_pixels_ok {bytes : List Byte} {s : State} (hl : LinkOk 1 s) :
    exec (.pixels bytes) s = .next (respond ({ s.sent (pixelEvents bytes) .D 1 with
      periph := bytes.foldl (fun p b => p.receive s.params .D b) s.periph }, .ok)) := by
  rw [← replay_pixels s.params s.dc]
  exact congrArg (fun r => Host.Outcome.next (respond r)) (sendPix_ok (LinkOk.head (n := 0) hl))

/-- Every byte but the two of a cell is as before it was written. -/
theorem read_setCell_other {m : Memory} {x y : Half} {h l : Byte} {a : Nat} (h0 : a ≠ cellAddr x y)
    (h1 : a ≠ cellAddr x y + 1) : (m.setCell x y h l).read a = m.read a := by
  rw [Memory.setCell, read_write, read_write, if_neg h1, if_neg h0]

/-- Settles O37. That a cell is the two bytes at its address is log 6's. -/
theorem pixelLandsAtTheWritePointer : Obligations.PixelLandsAtTheWritePointer := by
  intro s h l x y xs xe ye hq hl hp hc hh hwp hxs hxe hye
  have hs : Streaming s.params s.periph xs xe ye := ⟨hp, hc, hh, hxs, hxe, hye⟩
  have pixel := receive_pixel hq hs hwp h l
  refine ⟨_, exec_pixels_ok hl, ?_, fun a h0 h1 => ?_, ?_, ?_⟩
  all_goals simp only [List.foldl_cons, List.foldl_nil, pixel, respond_periph]
  · rw [cell_setCell, if_pos ⟨rfl, rfl⟩]
  · exact read_setCell_other h0 h1
  · rfl

/-- Settles O38. -/
theorem halfPixelAndOverrun : Obligations.HalfPixelAndOverrun := by
  intro s b hq hl hp hc hh
  have run := exec_pixels_ok (bytes := [b]) hl
  rw [List.foldl_cons, List.foldl_nil, receive_pixel_byte hq hp hc] at run
  refine ⟨fun c xs xe ye hwp hxs hxe hye => ?_, fun hwp => ⟨_, run, ?_⟩⟩
  · rw [run, onPixelByte_first hh hwp hxs hxe hye]
  · rw [onPixelByte_overrun hwp]
    rfl

end Sys2Proof.Machine
end

section
/-! PROOFS. INITIALIZE on a fault-free link: its whole trace goes out, said with `Sends`, which is closed under
sequencing; and what the controller makes of that trace from any condition (spec/42_controller.md R91,
spec/20_memory.md R43 to R46). -/

namespace Sys2Proof.Machine

/-! ### Operations on a fault-free link -/

/-- From `s`, if the link answers `ok` `n` times, `f` sends `es` in `n` transfers and ends with `dc` at `m`. -/
def Sends (f : Op) (es : List Event) (m : DcMode) (n : Nat) (s : State) : Prop :=
  LinkOk n s → f s = (s.sent es m n, .ok)

theorem sends_sendCmd (op : Byte) (args : List Byte) (s : State) :
    Sends (sendCmd op args) (commandEvents op args) (modeOfArgs args) (transfersOf args) s := sendCmd_ok

theorem sends_delay (p : TimingParam) {s : State} (h : s.cs = .released) :
    Sends (line (delay p)) [.wait p] s.dc 0 s := fun _ => by
  rw [line_apply, delay_eq p s h]

theorem sends_nothing {s : State} (h : s.cs = .released) : Sends (line id) [] s.dc 0 s := fun _ => by
  simp [State.sent, Periph.replay, ← h]

/-- One more line before the lines of a run. -/
theorem sends_cons {f : Op} {gs : List Op} {es fs : List Event} {m m' : DcMode} {n n' : Nat} {s : State}
    (hm : es.foldl modeAfter s.dc = m) (hf : Sends f es m n s) (hg : Sends (runLines gs) fs m' n' (s.sent es m n)) :
    Sends (runLines (f :: gs)) (es ++ fs) m' (n + n') s := fun hl => by
  rw [runLines_cons_ok (hf hl.first), hg (hl.sent es m), sent_sent _ _ _ _ _ _ _ hm]

/-- A run whose only line is `f`. -/
theorem sends_last {f : Op} {es : List Event} {m : DcMode} {n : Nat} {s : State} (hf : Sends f es m n s) :
    Sends (runLines [f]) es m n s := fun hl => runLines_cons_ok (hf hl)

theorem runLines_append_ok {fs gs : List Op} {s t : State} (h : runLines fs s = (t, .ok)) :
    runLines (fs ++ gs) s = runLines gs t := by
  induction fs generalizing s with
  | nil => cases h; rfl
  | cons f fs ih =>
    cases hf : f s with
    | mk u r =>
      cases r with
      | ok => rw [List.cons_append, runLines_cons_ok hf, ih (runLines_cons_ok hf ▸ h)]
      | err k => rw [runLines_cons_err hf] at h; cases h

/-! ### INITIALIZE's trace -/

/-- The events of INITIALIZE's steps 2 to 8 (spec/42_controller.md R91). -/
def initCommandEvents (q : Params) (c : PanelCfg) : List Event :=
  commandEvents q.opc.swreset [] ++ ([.wait .swreset] ++ (commandEvents q.opc.slpout [] ++ ([.wait .slpout] ++
    (commandEvents q.opc.pixfmt [pixfmtArgOf q c.bgr] ++ ((if c.invert then commandEvents q.opc.invon [] else []) ++
    commandEvents q.opc.dispon [])))))

theorem initEvents_eq (q : Params) (c : PanelCfg) : initEvents q c = resetPulse ++ initCommandEvents q c := by
  simp only [initEvents, initCommandEvents, List.append_assoc]

/-- How many transfers INITIALIZE takes. -/
def initTransfers (c : PanelCfg) : Nat := if c.invert then 6 else 5

/-- `dc` and the transfers after the invert-on command, which the configuration may leave out. -/
theorem sends_invert (q : Params) (c : PanelCfg) {s : State} (h : s.cs = .released) :
    Sends (if c.invert then sendCmd q.opc.invon [] else line id)
      (if c.invert then commandEvents q.opc.invon [] else []) (if c.invert then .C else s.dc)
      (if c.invert then 1 else 0) s := by
  cases c.invert with
  | true => exact sends_sendCmd q.opc.invon [] s
  | false => exact sends_nothing h

theorem sends_initCommands (q : Params) (c : PanelCfg) (s : State) :
    Sends (runLines (initCommands q c)) (initCommandEvents q c) .C (initTransfers c) s := by
  have h := sends_cons (modeAfter_sendCmd _ _ _) (sends_sendCmd q.opc.swreset [] s) <|
    sends_cons rfl (sends_delay .swreset rfl) <|
    sends_cons (modeAfter_sendCmd _ _ _) (sends_sendCmd q.opc.slpout [] _) <|
    sends_cons rfl (sends_delay .slpout rfl) <|
    sends_cons (modeAfter_sendCmd _ _ _) (sends_sendCmd q.opc.pixfmt [pixfmtArgOf q c.bgr] _) <|
    sends_cons (by cases c.invert; exacts [rfl, modeAfter_sendCmd _ _ _]) (sends_invert q c rfl) <|
    sends_last (sends_sendCmd q.opc.dispon [] _)
  have hn : initTransfers c = 1 + (0 + (1 + (0 + (2 + ((if c.invert then 1 else 0) + 1))))) := by
    cases hc : c.invert <;> simp [initTransfers, hc]
  rw [hn]
  exact h

/-- All that INITIALIZE does on a fault-free link. -/
theorem initOp_ok {s : State} (h : LinkOk (initTransfers s.cfg) s) :
    initOp s =
      ({ s.sent (initEvents s.params s.cfg) .C (initTransfers s.cfg) with rst := .high, fsm := .ready }, .ok) := by
  have commands := sends_initCommands s.params s.cfg (setFsm .awaitingInit (hwReset s).1) h
  have mode : resetPulse.foldl modeAfter s.dc = s.dc := rfl
  rw [initOp_eq, runLines_cons_ok (hwReset_eq s), runLines_cons_ok (line_apply _ _)]
  rw [hwReset_eq] at commands
  rw [runLines_append_ok commands, runLines_cons_ok (line_apply _ _), runLines_nil, initEvents_eq]
  simp [State.sent, setFsm, replay_append, mode]

/-! ### What the controller makes of it -/

/-- Whatever mode `dc` starts at, `es` takes the controller from `p` to `p'`. -/
def Brings (q : Params) (es : List Event) (p p' : Periph) : Prop := ∀ m, p.replay q m es = p'

theorem Brings.append {q : Params} {es fs : List Event} {p p' p'' : Periph} (h : Brings q es p p')
    (g : Brings q fs p' p'') : Brings q (es ++ fs) p p'' := fun m => by
  rw [replay_append, h m, g]

theorem brings_whole {q : Params} {p p' : Periph} {k : Command} {args : List Byte} (hq : q.wf) (h : TakesCommand q p)
    (hn : args.length = nargs k) (he : Periph.execute q k args { p with cur := some (opcodeOf q.opc k, args) } = p') :
    Brings q (commandEvents (opcodeOf q.opc k) args) p p' := fun m => (replay_whole m hq h hn).trans he

/-- A command that has all its arguments is not cut short: the next one may follow. -/
theorem takesCommand_after {q : Params} {p : Periph} (k : Command) {args : List Byte} (hq : q.wf)
    (hl : p.pmode = .sleep ∨ p.pmode = .awake) (hc : p.cur = some (opcodeOf q.opc k, args))
    (hn : args.length = nargs k) (hh : p.half = none) : TakesCommand q p :=
  { listens := hl
    between := by simp [Periph.midCommand, hc, commandOf_opcodeOf hq k, hn]
    whole := hh }

/-- A reset pulse with both its waits: asleep, and nothing is known but the reset value of the memory-access-control
register, whatever the controller was (spec/20_memory.md R44). -/
theorem brings_resetPulse (q : Params) (p : Periph) :
    Brings q resetPulse p { pmode := .sleep, lowOk := true, madctl := q.madctlReset } := fun _ => rfl

/-- INITIALIZE's trace, step by step, each with the controller it leaves: asleep after the pulse and again after the
software reset's wait, awake after the wake wait, then one register set by each command. -/
theorem brings_initEvents {q : Params} (hq : q.wf) (p : Periph) (c : PanelCfg) :
    Brings q (initEvents q c) p
      { pmode := .awake, lowOk := true, madctl := q.madctlReset, pixfmt := some (pixfmtArgOf q c.bgr), inv := c.invert,
        on := true, cur := some (q.opc.dispon, []) } := by
  rw [initEvents_eq]
  refine (brings_resetPulse q p).append ?_
  refine Brings.append (p' := { pmode := .swResetWait, lowOk := true, cur := some (q.opc.swreset, []) })
    (brings_whole (k := .swreset) hq ⟨.inl rfl, rfl, rfl⟩ rfl (execute_swreset (.inl rfl))) ?_
  refine Brings.append
    (p' := { pmode := .sleep, lowOk := true, madctl := q.madctlReset, cur := some (q.opc.swreset, []) })
    (fun _ => rfl) ?_
  refine Brings.append
    (p' := { pmode := .wakeWait, lowOk := true, madctl := q.madctlReset, cur := some (q.opc.slpout, []) })
    (brings_whole (k := .slpout) hq (takesCommand_after .swreset hq (.inl rfl) rfl rfl rfl) rfl
      (execute_slpout_asleep rfl)) ?_
  refine Brings.append
    (p' := { pmode := .awake, lowOk := true, madctl := q.madctlReset, cur := some (q.opc.slpout, []) })
    (fun _ => rfl) ?_
  refine Brings.append
    (p' := { pmode := .awake, lowOk := true, madctl := q.madctlReset, pixfmt := some (pixfmtArgOf q c.bgr),
             cur := some (q.opc.pixfmt, [pixfmtArgOf q c.bgr]) })
    (brings_whole (k := .pixfmt) hq (takesCommand_after .slpout hq (.inr rfl) rfl rfl rfl) rfl (execute_pixfmt rfl)) ?_
  cases c.invert with
  | true =>
    refine Brings.append
      (p' := { pmode := .awake, lowOk := true, madctl := q.madctlReset, pixfmt := some (pixfmtArgOf q c.bgr),
               inv := true, cur := some (q.opc.invon, []) })
      (brings_whole (k := .invon) hq (takesCommand_after .pixfmt hq (.inr rfl) rfl rfl rfl) rfl (execute_invon rfl)) ?_
    exact brings_whole (k := .dispon) hq (takesCommand_after .invon hq (.inr rfl) rfl rfl rfl) rfl (execute_dispon rfl)
  | false =>
    exact brings_whole (k := .dispon) hq (takesCommand_after .pixfmt hq (.inr rfl) rfl rfl rfl) rfl (execute_dispon rfl)

/-- Settles O39: the whole trace goes out, and it brings the controller up from any condition. -/
theorem initialiseBringsTheControllerUp : Obligations.InitialiseBringsTheControllerUp := by
  intro s hq hl
  refine ⟨_, congrArg (fun r => Host.Outcome.next (respond r)) (initOp_ok hl), rfl, ?_⟩
  exact brings_initEvents hq s.periph s.cfg s.dc

end Sys2Proof.Machine
end

section
/-! PROOFS. A successful host operation and the controller (spec/20_memory.md R52): success means that the whole trace
went out, whatever the link drew, and the controller stays awake and between commands under each of these traces. -/

namespace Sys2Proof.Machine

/-! ### What success says of an operation -/

theorem Traffics.of_ok {f : Op} {es : List Event} {m : DcMode} {n : Nat} {s u : State} (h : Traffics f es m n s)
    (hf : f s = (u, .ok)) : u = s.sent es m n := by
  rcases h with h | ⟨pre, m', k, -, h⟩
  · exact congrArg Prod.fst (hf.symm.trans h)
  · cases hf.symm.trans h

theorem andThen_of_ok {f g : Op} {s u : State} (h : andThen f g s = (u, .ok)) :
    ∃ t, f s = (t, .ok) ∧ g t = (u, .ok) := by
  cases hf : f s with
  | mk t r =>
    cases r with
    | ok => exact ⟨t, rfl, (andThen_ok hf).symm.trans h⟩
    | err k => cases (andThen_err hf).symm.trans h

theorem pair_of_ok {f g : Op} {s u : State} (h : runLines [f, g] s = (u, .ok)) :
    ∃ t, f s = (t, .ok) ∧ g t = (u, .ok) := by
  obtain ⟨t, hf, hlast⟩ := andThen_of_ok h
  obtain ⟨v, hg, hv⟩ := andThen_of_ok hlast
  cases hv
  exact ⟨t, hf, hg⟩

theorem whenReady_of_ok {f : Op} {s u : State} (h : whenReady f s = (u, .ok)) : s.fsm = .ready ∧ f s = (u, .ok) := by
  by_cases hr : s.fsm = .ready
  · exact ⟨hr, (whenReady_ready hr).symm.trans h⟩
  · cases (whenReady_early hr).symm.trans h

/-- A successful SET_WINDOW: the physical window lies in the panel and its three commands went out. -/
theorem setWindowOp_of_ok {w : Window} {s u : State} (h : setWindowOp w s = (u, .ok)) :
    InPanel s.cfg (relocate s.offset w).x0 (relocate s.offset w).y0 (relocate s.offset w).x1 (relocate s.offset w).y1 ∧
    u = s.sent (windowEvents s.params (relocate s.offset w).x0.toNat (relocate s.offset w).y0.toNat
      (relocate s.offset w).x1.toNat (relocate s.offset w).y1.toNat) .C 5 := by
  obtain ⟨hr, -⟩ := whenReady_of_ok h
  by_cases hi : insidePanel s.cfg (relocate s.offset w) = true
  · exact ⟨(insidePanel_iff _ _).mp hi, (traffics_setWindowOp hr hi).of_ok h⟩
  · cases (setWindowOp_outside hr hi).symm.trans h

/-- An operation that answers Ok ended Ok. -/
theorem perform_of_ok {f : Op} {s t : State} (hf : IsSteady f) (h : perform f s = .next t)
    (hr : t.results = s.results ++ [.ok]) : ∃ u, f s = (u, .ok) ∧ t = respond (u, .ok) := by
  cases h
  have hok : (f s).2 = .ok := by simpa [(hf s).results] using hr
  have hfs : f s = ((f s).1, .ok) := Prod.ext rfl hok
  exact ⟨(f s).1, hfs, by rw [← hfs]⟩

/-! ### The controller stays known -/

/-- Awake, between commands, and its pixel format set. -/
def Receptive (q : Params) (p : Periph) : Prop := p.pmode = .awake ∧ TakesCommand q p ∧ p.pixfmt.isSome

theorem receptive_iff (s : State) :
    Receptive s.params s.periph ↔ Attentive s ∧ s.periph.pixfmt.isSome := by
  constructor
  · rintro ⟨hawake, ⟨-, hbetween, hwhole⟩, hf⟩
    exact ⟨⟨hawake, hbetween, hwhole⟩, hf⟩
  · rintro ⟨ha, hf⟩
    exact ⟨ha.1, takesCommand_of_attentive ha, hf⟩

/-- After a whole command the controller is receptive again if it is still awake, with its pixel format and no half
pixel. -/
theorem receptive_after {q : Params} {p : Periph} (k : Command) {args : List Byte} (hq : q.wf) (hp : p.pmode = .awake)
    (hc : p.cur = some (opcodeOf q.opc k, args)) (hn : args.length = nargs k) (hh : p.half = none)
    (hf : p.pixfmt.isSome) : Receptive q p := ⟨hp, takesCommand_after k hq (.inr hp) hc hn hh, hf⟩

/-- Where `f` ends Ok from a state whose controller is receptive, the controller is receptive again. -/
def KeepsReceptive (f : Op) (s : State) : Prop :=
  ∀ u, f s = (u, .ok) → Receptive s.params s.periph → Receptive u.params u.periph

theorem madctlArgOf_mem (q : Params) (o : Orientation) : madctlArgOf q o ∈ madctlBytes q := by
  cases o <;> simp [madctlArgOf, madctlBytes]

theorem keepsReceptive_setOrientationOp (o : Orientation) {s : State} (hq : s.params.wf) :
    KeepsReceptive (setOrientationOp o) s := by
  intro u h ⟨hp, ht, hf⟩
  obtain ⟨-, h⟩ := whenReady_of_ok h
  obtain ⟨t, hsend, hset⟩ := pair_of_ok h
  cases hset
  obtain rfl := (traffics_sendCmd _ _ s).of_ok hsend
  have hrun : s.periph.replay s.params s.dc (commandEvents s.params.opc.madctl [madctlArgOf s.params o]) = _ :=
    brings_whole (k := .madctl) hq ht rfl (execute_madctl_known hp (madctlArgOf_mem s.params o)) s.dc
  rw [setOrient_params, setOrient_periph, sent_params, sent_periph, hrun]
  exact receptive_after .madctl hq hp rfl rfl ht.whole hf

/-- In a panel of the configuration invariant the last corner's coordinates are 16-bit quantities. -/
theorem lastCorner_lt {c : PanelCfg} {X0 Y0 X1 Y1 : Int} (hc : c.wf) (hi : InPanel c X0 Y0 X1 Y1) :
    X1.toNat < 65536 ∧ Y1.toNat < 65536 := by
  obtain ⟨⟨-, hw⟩, -, hh⟩ := hc
  obtain ⟨-, ⟨-, hx⟩, -, -, hy⟩ := hi
  omega

/-- SET_WINDOW of a window that is not inverted: the three commands leave write-to-RAM as the current command. -/
theorem keepsReceptive_setWindowOp {w : Window} {s : State} (hq : s.params.wf) (hc : s.cfg.wf) (hx : w.x0 ≤ w.x1)
    (hy : w.y0 ≤ w.y1) : KeepsReceptive (setWindowOp w) s := by
  intro u h ⟨hp, ht, hf⟩
  obtain ⟨hi, rfl⟩ := setWindowOp_of_ok h
  obtain ⟨hX, hY⟩ := lastCorner_lt hc hi
  have ex : (relocate s.offset w).x0.toNat ≤ (relocate s.offset w).x1.toNat :=
    Int.toNat_le_toNat (Int.add_le_add_right hx _)
  have ey : (relocate s.offset w).y0.toNat ≤ (relocate s.offset w).y1.toNat :=
    Int.toNat_le_toNat (Int.add_le_add_right hy _)
  rw [sent_params, sent_periph, replay_window s.dc hq hp ht.between ht.whole hf ex ey hX hY]
  exact receptive_after .ramwr hq hp rfl rfl ht.whole hf

/-- The lines CLEAR and DRAW share, with a stream of exactly the window's size: the window is filled and no more. -/
theorem keepsReceptive_fillWindow {w : Window} {bytes : List Byte} {s : State} {n h : Nat} (hq : s.params.wf)
    (hc : s.cfg.wf) (hn : 0 < n) (hh : 0 < h) (hx : w.x1 = w.x0 + n - 1) (hy : w.y1 = w.y0 + h - 1)
    (hb : bytes.length = 2 * (n * h)) :
    KeepsReceptive (runLines [setWindowOp w, sendPix bytes]) s := by
  intro u hu ⟨hp, ht, hf⟩
  obtain ⟨t, hwin, hpix⟩ := pair_of_ok hu
  obtain ⟨hi, rfl⟩ := setWindowOp_of_ok hwin
  obtain rfl := (traffics_sendPix bytes _).of_ok hpix
  obtain ⟨hX, hY⟩ := lastCorner_lt hc hi
  obtain ⟨⟨hx0, -⟩, -, ⟨hy0, -⟩, -⟩ := hi
  have ex : (relocate s.offset w).x1.toNat = (relocate s.offset w).x0.toNat + n - 1 := by
    simp only [relocate, hx] at hx0 ⊢
    omega
  have ey : (relocate s.offset w).y1.toNat = (relocate s.offset w).y0.toNat + h - 1 := by
    simp only [relocate, hy] at hy0 ⊢
    omega
  rw [ex] at hX
  rw [ey] at hY
  rw [sent_sent _ _ _ _ _ _ _ (modeAfter_window _ _ _ _ _ _), ex, ey, sent_params, sent_periph,
    replay_window_pixels s.dc hq hp ht.between ht.whole hf hn hh (by omega) (by omega) bytes hb]
  exact receptive_after .ramwr hq hp rfl rfl ht.whole hf

theorem colourBytes_length (n : Nat) (color : Half) : (colourBytes n color).length = 2 * n := by
  simp [colourBytes, be16, Nat.mul_comm]

theorem keepsReceptive_clearOp (color : Half) {s : State} (hq : s.params.wf) (hc : s.cfg.wf) :
    KeepsReceptive (clearOp color) s := by
  intro u h
  obtain ⟨-, h⟩ := whenReady_of_ok h
  have ⟨⟨hw, _⟩, hh, _⟩ := hc
  exact keepsReceptive_fillWindow hq hc hw hh (by simp [fullPanel]) (by simp [fullPanel]) (colourBytes_length _ _) u h

theorem keepsReceptive_drawOp (x y roww : Half) (bytes : List Byte) {s : State} (hq : s.params.wf) (hc : s.cfg.wf) :
    KeepsReceptive (drawOp x y roww bytes) s := by
  intro u h
  obtain ⟨-, h⟩ := whenReady_of_ok h
  by_cases hs : WellShaped bytes roww
  · simp only [bitmapShape_some hs] at h
    obtain ⟨hroww, heven, hne, hdvd⟩ := hs
    have hn : 0 < roww.toNat := Nat.pos_of_ne_zero fun h0 => hroww (BitVec.eq_of_toNat_eq h0)
    have hsize := Nat.mul_div_cancel' (Nat.dvd_of_mod_eq_zero hdvd)
    have hh : 0 < bytes.length / 2 / roww.toNat :=
      Nat.pos_of_ne_zero fun h0 => hne (by rw [← hsize, h0, Nat.mul_zero])
    exact keepsReceptive_fillWindow hq hc hn hh rfl rfl (by rw [hsize]; omega) u h
  · simp only [bitmapShape_none hs] at h
    cases h

/-- Settles O42: each of the five operations keeps the controller receptive where it ends Ok. -/
theorem successKeepsTheControllerKnown : Obligations.SuccessKeepsTheControllerKnown := by
  intro s t i hq hc ha hf hi h hr
  have known := (receptive_iff s).mpr ⟨ha, hf⟩
  have finish {f : Op} (hs : IsSteady f) (hk : KeepsReceptive f s) (h : perform f s = .next t) :
      Attentive t ∧ t.periph.pixfmt.isSome := by
    obtain ⟨u, hu, rfl⟩ := perform_of_ok hs h hr
    exact (receptive_iff u).mp (hk u hu known)
  cases i with
  | setOrientation o => exact finish (steady_setOrientationOp o) (keepsReceptive_setOrientationOp o hq) h
  | setOffset dx dy => exact finish (steady_line (steady_writeOffset dx dy)) (fun u hu hk => by cases hu; exact hk) h
  | setWindow x0 y0 x1 y1 =>
    obtain ⟨hx, hy⟩ := hi
    exact finish (steady_setWindowOp _)
      (keepsReceptive_setWindowOp hq hc (Int.ofNat_le.mpr hx) (Int.ofNat_le.mpr hy)) h
  | clear color => exact finish (steady_clearOp color) (keepsReceptive_clearOp color hq hc) h
  | draw x y roww bytes => exact finish (steady_drawOp x y roww bytes) (keepsReceptive_drawOp x y roww bytes hq hc) h
  | _ => exact hi.elim

end Sys2Proof.Machine
end

section
/-! PROOFS. The decoder and the encoder (spec/30_encoding.md R55 to R58, R65 to R68): what the decoder makes of a whole
frame, of a code and of a reserved request, each said once; and that what it yields is well-formed. -/

namespace Sys2Proof.Machine

/-! ### Decoding what the encoder spells -/

theorem orientationOfCode_code (o : Orientation) : orientationOfCode (codeOfOrientation o) = some o := by
  cases o <;> rfl

/-- A command byte under C and its arguments under D are read as that command with these arguments. -/
theorem decode_commandFrame {q : Params} (hq : q.wf) (k : Command) (args : List Byte) :
    decode q (commandFrame (opcodeOf q.opc k) args) = decodeCommand q k args := by
  simp [decode, commandFrame, decodeFrame, commandOf_opcodeOf hq, allData_dataBytes, map_snd_dataBytes]

/-- A frame of data bytes alone, empty or not, is read as the pixel stream. -/
theorem decode_dataBytes (q : Params) (bytes : List Byte) :
    decode q (.frame (dataBytes bytes)) = .instr (.pixels bytes) := by
  have h : decode q (.frame (dataBytes bytes)) = if allData (dataBytes bytes)
      then .instr (.pixels ((dataBytes bytes).map Prod.snd)) else .rejected .malformedFrame := by
    cases bytes <;> rfl
  rw [h, if_pos (allData_dataBytes bytes), map_snd_dataBytes]

/-- Settles O1: the request operations spell their own slots; a frame is read back command by command, its 16-bit
arguments joined again from their halves. -/
theorem decodeInvertsEncode : Obligations.DecodeInvertsEncode := by
  intro q i x hq h
  have frame (k : Command) (args : List Byte) (he : commandFrame (opcodeOf q.opc k) args = x) :
      decode q x = decodeCommand q k args := he ▸ decode_commandFrame hq k args
  cases i with
  | reset | initialise | setOffset | setWindow | writePixels | clear | draw => cases h; rfl
  | setOrientation o =>
    cases h
    simp [decode, decodeRequest, orientationOfCode_code]
  | reservedHost | busWrite | hwReset | sendCmd | sendPix => cases h
  | swreset => exact frame .swreset [] (Option.some.inj h)
  | slpout => exact frame .slpout [] (Option.some.inj h)
  | invon => exact frame .invon [] (Option.some.inj h)
  | dispon => exact frame .dispon [] (Option.some.inj h)
  | ramwr => exact frame .ramwr [] (Option.some.inj h)
  | pixfmt arg => exact frame .pixfmt [arg] (Option.some.inj h)
  | caset s e =>
    rw [frame .caset _ (Option.some.inj h), decodeCommand, hiByte_append_loByte, hiByte_append_loByte]
  | raset s e =>
    rw [frame .raset _ (Option.some.inj h), decodeCommand, hiByte_append_loByte, hiByte_append_loByte]
  | madctl arg =>
    rw [encode] at h
    split_ifs at h with ha
    rw [frame .madctl [arg] (Option.some.inj h), decodeCommand, if_pos ha]
  | pixels bytes =>
    cases h
    exact decode_dataBytes q bytes

/-! ### What the decoder yields -/

/-- Each selector gives a host operation or is rejected; selector 2 asks the orientation code first. -/
theorem decodeRequest_hostOperation {r : Request} {i : Instr} (h : decodeRequest r = .instr i) :
    i.hostOperation = true := by
  unfold decodeRequest at h
  split_ifs at h
  on_goal 3 => split at h
  all_goals cases h <;> rfl

theorem wf_of_hostOperation (q : Params) {i : Instr} (h : i.hostOperation = true) : i.wf q = true := by
  cases i with
  | reservedHost | madctl => cases h
  | _ => rfl

/-- MADCTL is the one wire command whose operand is restricted, and the decoder asks for one of its four bytes. -/
theorem decodeCommand_wf {q : Params} {k : Command} {args : List Byte} {i : Instr}
    (h : decodeCommand q k args = .instr i) : i.wf q = true := by
  unfold decodeCommand at h
  split at h
  case h_6 =>
    split_ifs at h with ha
    cases h
    exact decide_eq_true ha
  case h_10 => cases h
  all_goals cases h; rfl

theorem decodeFrame_wf {q : Params} {f : Frame} {i : Instr} (h : decodeFrame q f = .instr i) : i.wf q = true := by
  unfold decodeFrame at h
  split at h
  · split at h
    · cases h
    · split_ifs at h
      exact decodeCommand_wf h
  · split_ifs at h
    cases h
    rfl

theorem decode_wf {q : Params} {x : Input} {i : Instr} (h : decode q x = .instr i) : i.wf q = true := by
  cases x with
  | request r => exact wf_of_hostOperation q (decodeRequest_hostOperation h)
  | frame f => exact decodeFrame_wf h

/-- Settles O2: for requests this is R68's; that a frame is an input is log 7's, and that one with a foreign MADCTL byte is
refused, log 13's. -/
theorem decoderYieldsOnlySpelledOperations : Obligations.DecoderYieldsOnlySpelledOperations :=
  ⟨fun _ _ _ h => ⟨decode_wf h, decode_internal h⟩, fun _ _ _ h => decodeRequest_hostOperation h⟩

/-- Settles O3: each word is closed, and the decoder computes on it. -/
theorem specWordsDecode : Obligations.SpecWordsDecode := ⟨rfl, rfl, rfl, rfl, rfl, rfl⟩

/-! ### Reserved requests -/

theorem decodeRequest_reservedSelector {r : Request} (h : 8 ≤ r.op.toNat) :
    decodeRequest r = .rejected .reservedSelector := by
  have other (n : BitVec 4) (hn : n.toNat < 8) : r.op ≠ n := fun e => by rw [e] at h; omega
  simp [decodeRequest, other]

theorem orientationOfCode_reserved {a : Half} (h : 4 ≤ a.toNat) : orientationOfCode a = none := by
  have other (n : Half) (hn : n.toNat < 4) : a ≠ n := fun e => by rw [e] at h; omega
  simp [orientationOfCode, other]

theorem decodeRequest_reservedOrientation {r : Request} (hop : r.op = 2) (ha : 4 ≤ r.a.toNat) :
    decodeRequest r = .rejected .reservedOrientation := by
  simp [decodeRequest, hop, orientationOfCode_reserved ha]

/-- Settles O4: the decoder rejects both forms, and a rejected input is no step. -/
theorem reservedRequestsTakeNoStep : Obligations.ReservedRequestsTakeNoStep :=
  fun _ _ _ hin => ⟨fun hop => step_rejected hin (decodeRequest_reservedSelector hop),
    fun hop ha => step_rejected hin (decodeRequest_reservedOrientation hop ha)⟩

/-- Settles O5: the row's meaning is the refusal itself, whatever the state. -/
theorem reservedHostStops : Obligations.ReservedHostStops := fun _ _ => rfl

end Sys2Proof.Machine
end

section
/-! PROOFS. The framed byte stream (spec/00_scope.md R5, spec/30_encoding.md R55 to R57) of each piece of a trace; and the
wire commands and WRITE_PIXELS on a fault-free link, as the frames they put out. -/

namespace Sys2Proof.Machine

/-! ### The framed byte stream, piece by piece -/

theorem framed_append (m : DcMode) (es fs : List Event) :
    framed m (es ++ fs) = framed m es ++ framed (es.foldl modeAfter m) fs := by
  induction es generalizing m with
  | nil => rfl
  | cons e es ih => cases e <;> simp [framed, modeAfter, ih]

theorem framed_tx (m : DcMode) (bs : List Byte) : framed m (bs.map .tx) = bs.map (.byte m) := by
  induction bs with
  | nil => rfl
  | cons b bs ih => simp [framed, ih]

theorem framed_transaction (m : DcMode) (bs : List Byte) : framed m (transactionEvents bs) = bs.map (.byte m) := by
  simp [transactionEvents, framed, framed_append, framed_tx]

theorem framed_pixels (m : DcMode) (bytes : List Byte) : framed m (pixelEvents bytes) = bytes.map (.byte .D) := by
  rw [pixelEvents, framed, framed_transaction]

theorem framed_command (m : DcMode) (op : Byte) (args : List Byte) :
    framed m (commandEvents op args) = .byte .C op :: args.map (.byte .D) := by
  rw [commandEvents, List.cons_append, framed, framed_append, framed_transaction]
  split_ifs with h
  · simp [h, framed]
  · simp [framed, framed_transaction]

/-! ### Wire commands go out framed -/

theorem perform_sendCmd_ok {op : Byte} {args : List Byte} {s : State} (h : LinkOk (transfersOf args) s) :
    perform (sendCmd op args) s =
      .next (respond (s.sent (commandEvents op args) (modeOfArgs args) (transfersOf args), .ok)) :=
  congrArg (fun r => Host.Outcome.next (respond r)) (sendCmd_ok h)

theorem perform_sendPix_ok {bytes : List Byte} {s : State} (h : LinkOk 1 s) :
    perform (sendPix bytes) s = .next (respond (s.sent (pixelEvents bytes) .D 1, .ok)) :=
  congrArg (fun r => Host.Outcome.next (respond r)) (sendPix_ok (LinkOk.head (n := 0) h))

/-- Settles O30: WC0 and PX are one transfer, WC1 and WC4 two; the 16-bit arguments go out as their halves. That these rows
are run as instructions is log 7's. -/
theorem wireCommandsGoOutFramed : Obligations.WireCommandsGoOutFramed := by
  intro s
  refine ⟨fun h => ?_, fun h => ?_⟩
  · have wc0 (op : Byte) := perform_sendCmd_ok (op := op) (args := []) h
    exact ⟨wc0 _, wc0 _, wc0 _, wc0 _, wc0 _, fun _ => perform_sendPix_ok h⟩
  · have wc1 (op a : Byte) := perform_sendCmd_ok (op := op) (args := [a]) h
    have wc4 (op a0 a1 a2 a3 : Byte) := perform_sendCmd_ok (op := op) (args := [a0, a1, a2, a3]) h
    exact ⟨wc1 _, wc1 _, fun a b => (exec_caset_bytes a b s).trans (wc4 _ _ _ _ _),
      fun a b => (exec_raset_bytes a b s).trans (wc4 _ _ _ _ _)⟩

/-! ### A pixel stream may be split -/

theorem exec_writePixels_ok {bytes : List Byte} {s : State} (hr : s.fsm = .ready) (h : LinkOk 1 s) :
    exec (.writePixels bytes) s = .next (respond (s.sent (pixelEvents bytes) .D 1, .ok)) :=
  (congrArg (fun r => Host.Outcome.next (respond r)) (whenReady_ready hr)).trans (perform_sendPix_ok h)

/-- The controller receives the bytes of two streams one after the other as it receives the bytes of one. -/
theorem replay_pixels_append (q : Params) (m : DcMode) (p : Periph) (a b : List Byte) :
    (p.replay q m (pixelEvents a)).replay q .D (pixelEvents b) = p.replay q m (pixelEvents (a ++ b)) := by
  simp only [replay_pixels, List.foldl_append]

theorem framed_pixels_append (m : DcMode) (a b : List Byte) :
    framed m (pixelEvents a ++ pixelEvents b) = framed m (pixelEvents (a ++ b)) := by
  simp only [framed_append, framed_pixels, List.map_append]

/-- Settles O45: the second call drives `dc` to D again and opens a second transaction, neither of which is in the framed
byte stream or seen by the controller. -/
theorem pixelStreamMayBeSplit : Obligations.PixelStreamMayBeSplit := by
  intro s a b hr hl
  have hl : LinkOk (1 + 1) s := hl
  refine ⟨_, _, _, pixelEvents a ++ pixelEvents b, pixelEvents (a ++ b), exec_writePixels_ok hr hl.first,
    exec_writePixels_ok hr (hl.sent (pixelEvents a) .D), exec_writePixels_ok hr hl.first, ?_, rfl, ?_, rfl,
    framed_pixels_append s.dc a b⟩
  · exact replay_pixels_append s.params s.dc s.periph a b
  · exact List.append_assoc _ _ _

end Sys2Proof.Machine
end

section
/-! PROOFS. Every command byte a step sends is one of the nine, and memory-access-control is always followed by one of its
four bytes (spec/30_encoding.md R59, R68, wire side): what whole frames have in common (`Orderly`), what is left of it
where a fault cuts the traffic short (`CutShort`), said once for the shared operations and closed under sequencing. -/

namespace Sys2Proof.Machine

/-! ### Orderly streams -/

/-- In a framed byte stream every command byte is one of the nine and, where they are distinct, memory-access-control is
followed at once by one of its four bytes. Unlike the statement's own conditions this one joins: it lets no stream end
between the command and its byte. -/
def OrderlyItems (q : Params) : List FbItem → Prop
  | [] => True
  | .byte .C b :: rest => b ∈ opcodeList q.opc ∧
      (q.wf → b = q.opc.madctl → ∃ a ∈ madctlBytes q, rest.head? = some (.byte .D a)) ∧ OrderlyItems q rest
  | _ :: rest => OrderlyItems q rest

section
variable {q : Params} {xs ys : List FbItem}

theorem OrderlyItems.append (hx : OrderlyItems q xs) (hy : OrderlyItems q ys) : OrderlyItems q (xs ++ ys) := by
  induction xs with
  | nil => exact hy
  | cons x xs ih =>
    match x, hx with
    | .byte .C b, ⟨hb, hmadctl, hxs⟩ =>
      refine ⟨hb, fun hq e => ?_, ih hxs⟩
      obtain ⟨a, ha, hhead⟩ := hmadctl hq e
      exact ⟨a, ha, by simp [hhead]⟩
    | .byte .D _, hxs | .rst _, hxs | .wait _, hxs => exact ih hxs

theorem OrderlyItems.of_append_right (h : OrderlyItems q (xs ++ ys)) : OrderlyItems q ys := by
  induction xs with
  | nil => exact h
  | cons x xs ih =>
    match x, h with
    | .byte .C _, ⟨_, _, h⟩ => exact ih h
    | .byte .D _, h | .rst _, h | .wait _, h => exact ih h

theorem OrderlyItems.command_mem {b : Byte} (h : OrderlyItems q xs) (hb : .byte .C b ∈ xs) : b ∈ opcodeList q.opc := by
  obtain ⟨before, after, rfl⟩ := List.append_of_mem hb
  exact h.of_append_right.1

theorem OrderlyItems.orientationByte_mem {before after : List FbItem} {a : Byte} (hq : q.wf)
    (h : OrderlyItems q (before ++ .byte .C q.opc.madctl :: .byte .D a :: after)) : a ∈ madctlBytes q := by
  obtain ⟨-, hmadctl, -⟩ := h.of_append_right
  obtain ⟨a', ha', hhead⟩ := hmadctl hq rfl
  cases hhead
  exact ha'

end

theorem orderlyItems_data (q : Params) (bs : List Byte) : OrderlyItems q (bs.map (.byte .D)) := by
  induction bs with
  | nil => trivial
  | cons b bs ih => exact ih

/-- A trace whose framed byte stream is orderly, whatever mode it starts under. -/
def Orderly (q : Params) (es : List Event) : Prop := ∀ m, OrderlyItems q (framed m es)

/-- A trace whose framed byte stream is the beginning of an orderly one: it may end between a command and its argument. -/
def CutShort (q : Params) (es : List Event) : Prop := ∀ m, ∃ items, OrderlyItems q items ∧ framed m es <+: items

section
variable {q : Params} {es fs : List Event}

theorem Orderly.append (he : Orderly q es) (hf : Orderly q fs) : Orderly q (es ++ fs) := fun m => by
  rw [framed_append]
  exact (he m).append (hf _)

theorem Orderly.cutShort (he : Orderly q es) : CutShort q es := fun m => ⟨_, he m, List.prefix_rfl⟩

/-- Orderly traffic, and then traffic that is cut short. -/
theorem Orderly.append_cutShort (he : Orderly q es) (hf : CutShort q fs) : CutShort q (es ++ fs) := fun m => by
  obtain ⟨items, hitems, hprefix⟩ := hf (es.foldl modeAfter m)
  rw [framed_append]
  exact ⟨_, (he m).append hitems, (List.prefix_append_right_inj _).mpr hprefix⟩

/-- What goes out before a fault, closed by the CS(0) of the failed transaction. -/
theorem Orderly.cutShort_of_prefix {pre : List Event} (he : Orderly q es) (hp : pre <+: es) :
    CutShort q (pre ++ [.cs .released]) := fun m => by
  obtain ⟨rest, rfl⟩ := hp
  refine ⟨_, he m, ?_⟩
  rw [framed_append, framed_append, framed, framed, List.append_nil]
  exact List.prefix_append _ _

theorem CutShort.onlyCommands (h : CutShort q es) (m : DcMode) : OnlyCommands q m es := fun b hb => by
  obtain ⟨items, hitems, hprefix⟩ := h m
  exact hitems.command_mem (hprefix.subset hb)

theorem CutShort.onlyOrientationBytes (h : CutShort q es) (hq : q.wf) (m : DcMode) : OnlyOrientationBytes q m es := by
  intro before a after he
  obtain ⟨items, hitems, rest, rfl⟩ := h m
  rw [he] at hitems
  exact OrderlyItems.orientationByte_mem (before := before) (after := after ++ rest) hq (by simpa using hitems)

end

theorem opcodeOf_mem (c : Opcodes) (k : Command) : opcodeOf c k ∈ opcodeList c := by
  cases k <;> simp [opcodeOf, opcodeList]

/-- Where the nine command bytes are distinct, only memory-access-control has its byte. -/
theorem opcodeOf_eq_madctl {q : Params} (hq : q.wf) {k : Command} (h : opcodeOf q.opc k = q.opc.madctl) :
    k = .madctl := by
  have hk := commandOf_opcodeOf hq k
  rw [h, show q.opc.madctl = opcodeOf q.opc .madctl from rfl, commandOf_opcodeOf hq] at hk
  exact (Option.some.inj hk).symm

/-- A whole command, if memory-access-control then with one of its four bytes. -/
theorem orderly_command {q : Params} (k : Command) (args : List Byte)
    (h : k = .madctl → ∃ a ∈ madctlBytes q, args.head? = some a) :
    Orderly q (commandEvents (opcodeOf q.opc k) args) := fun m => by
  rw [framed_command]
  refine ⟨opcodeOf_mem _ _, fun hq e => ?_, orderlyItems_data q args⟩
  obtain ⟨a, ha, hhead⟩ := h (opcodeOf_eq_madctl hq e)
  exact ⟨a, ha, by simp [hhead]⟩

theorem orderly_pixels (q : Params) (bytes : List Byte) : Orderly q (pixelEvents bytes) := fun m => by
  rw [framed_pixels]
  exact orderlyItems_data q bytes

theorem orderly_resetPulse (q : Params) : Orderly q resetPulse := fun _ => trivial

theorem orderly_wait (q : Params) (p : TimingParam) : Orderly q [.wait p] := fun _ => trivial

theorem orderly_nil (q : Params) : Orderly q [] := fun _ => trivial

/-! ### Disciplined operations -/

/-- Under the parameters `q`, `f` puts out an orderly trace, or one cut short where it does not end Ok. -/
def Disciplined (q : Params) (f : Op) : Prop :=
  ∀ s, s.params = q → ∃ t r es, f s = (t, r) ∧ t.params = q ∧ t.trace = s.trace ++ es ∧ CutShort q es ∧
    (r = .ok → Orderly q es)

section
variable {q : Params}

/-- A line that puts out an orderly trace. -/
theorem disciplined_line {f : State → State} (es : List Event) (he : Orderly q es)
    (hp : ∀ s, (f s).params = s.params) (ht : ∀ s, (f s).trace = s.trace ++ es) : Disciplined q (line f) :=
  fun s hs => ⟨f s, .ok, es, rfl, (hp s).trans hs, ht s, he.cutShort, fun _ => he⟩

/-- A line that puts out nothing. -/
theorem disciplined_silent {f : State → State} (hp : ∀ s, (f s).params = s.params) (ht : ∀ s, (f s).trace = s.trace) :
    Disciplined q (line f) :=
  disciplined_line [] (orderly_nil q) hp fun s => (ht s).trans (List.append_nil _).symm

theorem disciplined_nothing : Disciplined q (line id) := disciplined_silent (fun _ => rfl) fun _ => rfl

theorem disciplined_raise (k : ErrKind) : Disciplined q (raise k) :=
  fun s hs => ⟨s, .err k, [], rfl, hs, (List.append_nil _).symm, (orderly_nil q).cutShort, fun _ => orderly_nil q⟩

/-- An operation made of transfers whose whole trace is orderly. -/
theorem disciplined_of_traffics {f : Op} {es : List Event} {m : DcMode} {n : Nat} (he : Orderly q es)
    (h : ∀ s, Traffics f es m n s) : Disciplined q f := by
  intro s hs
  rcases h s with h | ⟨pre, m', k, hp, h⟩
  · exact ⟨_, _, es, h, hs, rfl, he.cutShort, fun _ => he⟩
  · exact ⟨_, _, pre ++ [.cs .released], h, hs, rfl, he.cutShort_of_prefix hp, fun hok => by cases hok⟩

theorem disciplined_andThen {f g : Op} (hf : Disciplined q f) (hg : Disciplined q g) : Disciplined q (andThen f g) := by
  intro s hs
  obtain ⟨t, r, es, hfs, htq, hte, hcut, hok⟩ := hf s hs
  cases r with
  | ok =>
    obtain ⟨u, r, fs, hgt, huq, hue, hcut', hok'⟩ := hg t htq
    exact ⟨u, r, es ++ fs, (andThen_ok hfs).trans hgt, huq, by rw [hue, hte, List.append_assoc],
      (hok rfl).append_cutShort hcut', fun hr => (hok rfl).append (hok' hr)⟩
  | err k => exact ⟨t, .err k, es, andThen_err hfs, htq, hte, hcut, hok⟩

theorem disciplined_runLines {fs : List Op} (h : ∀ f ∈ fs, Disciplined q f) : Disciplined q (runLines fs) := by
  induction fs with
  | nil => exact disciplined_nothing
  | cons f fs ih =>
    exact disciplined_andThen (h f List.mem_cons_self) (ih fun g hg => h g (List.mem_cons_of_mem _ hg))

theorem disciplined_pair {f g : Op} (hf : Disciplined q f) (hg : Disciplined q g) : Disciplined q (runLines [f, g]) :=
  disciplined_runLines (by simp [hf, hg])

theorem disciplined_whenReady {f : Op} (h : Disciplined q f) : Disciplined q (whenReady f) := by
  intro s hs
  by_cases hr : s.fsm = .ready
  · rw [whenReady_ready hr]
    exact h s hs
  · rw [whenReady_early hr]
    exact disciplined_raise .sequenceError s hs

theorem disciplined_sendCmd (k : Command) (args : List Byte)
    (h : k = .madctl → ∃ a ∈ madctlBytes q, args.head? = some a) :
    Disciplined q (sendCmd (opcodeOf q.opc k) args) :=
  disciplined_of_traffics (orderly_command k args h) (traffics_sendCmd _ _)

/-- Every command but memory-access-control, with any arguments. -/
theorem disciplined_sendOther (k : Command) (args : List Byte) (h : k ≠ .madctl) :
    Disciplined q (sendCmd (opcodeOf q.opc k) args) := disciplined_sendCmd k args fun e => absurd e h

/-- Memory-access-control with one of its four bytes. -/
theorem disciplined_sendMadctl {a : Byte} (ha : a ∈ madctlBytes q) : Disciplined q (sendCmd q.opc.madctl [a]) :=
  disciplined_sendCmd .madctl [a] fun _ => ⟨a, ha, rfl⟩

theorem disciplined_sendPix (bytes : List Byte) : Disciplined q (sendPix bytes) :=
  disciplined_of_traffics (orderly_pixels q bytes) (traffics_sendPix bytes)

theorem disciplined_delay (p : TimingParam) : Disciplined q (line (delay p)) :=
  disciplined_line [.wait p] (orderly_wait q p) (fun _ => rfl) fun _ => rfl

theorem disciplined_setFsm (x : Fsm) : Disciplined q (line (setFsm x)) :=
  disciplined_silent (fun _ => rfl) fun _ => rfl

theorem disciplined_setOrient (o : Orientation) : Disciplined q (line (setOrient o)) :=
  disciplined_silent (fun _ => rfl) fun _ => rfl

theorem disciplined_writeOffset (dx dy : Half) : Disciplined q (line (writeOffset dx dy)) :=
  disciplined_silent (fun _ => rfl) fun _ => rfl

theorem disciplined_hwReset : Disciplined q hwReset := fun s hs =>
  ⟨_, .ok, resetPulse, hwReset_eq s, hs, rfl, (orderly_resetPulse q).cutShort, fun _ => orderly_resetPulse q⟩

/-! ### The host's operations -/

theorem disciplined_initCommands {c : PanelCfg} {f : Op} (hf : f ∈ initCommands q c) : Disciplined q f := by
  simp only [initCommands, List.mem_cons, List.not_mem_nil, or_false] at hf
  rcases hf with rfl | rfl | rfl | rfl | rfl | rfl | rfl
  · exact disciplined_sendOther .swreset _ (by decide)
  · exact disciplined_delay _
  · exact disciplined_sendOther .slpout _ (by decide)
  · exact disciplined_delay _
  · exact disciplined_sendOther .pixfmt _ (by decide)
  · split_ifs
    · exact disciplined_sendOther .invon _ (by decide)
    · exact disciplined_nothing
  · exact disciplined_sendOther .dispon _ (by decide)

theorem disciplined_resetOp : Disciplined q resetOp := disciplined_pair disciplined_hwReset (disciplined_setFsm _)

theorem disciplined_initOp : Disciplined q initOp := by
  rintro s rfl
  rw [initOp_eq]
  refine disciplined_runLines (fun f hf => ?_) s rfl
  simp only [List.mem_cons, List.mem_append, List.not_mem_nil, or_false] at hf
  rcases hf with rfl | rfl | hf | rfl
  · exact disciplined_hwReset
  · exact disciplined_setFsm _
  · exact disciplined_initCommands hf
  · exact disciplined_setFsm _

theorem disciplined_setOrientationOp (o : Orientation) : Disciplined q (setOrientationOp o) :=
  disciplined_whenReady <| by
    rintro s rfl
    exact disciplined_pair (disciplined_sendMadctl (madctlArgOf_mem s.params o)) (disciplined_setOrient o) s rfl

theorem disciplined_programWindow (w : Window) : Disciplined q (programWindow w) := by
  rintro s rfl
  refine disciplined_runLines (fun f hf => ?_) s rfl
  simp only [List.mem_cons, List.not_mem_nil, or_false] at hf
  rcases hf with rfl | rfl | rfl
  · exact disciplined_sendOther .caset _ (by decide)
  · exact disciplined_sendOther .raset _ (by decide)
  · exact disciplined_sendOther .ramwr _ (by decide)

theorem disciplined_setWindowOp (w : Window) : Disciplined q (setWindowOp w) :=
  disciplined_whenReady fun s hs => by
    split_ifs
    · exact disciplined_programWindow _ s hs
    · exact disciplined_raise _ s hs

/-- The lines CLEAR and DRAW share: the window, then the stream. -/
theorem disciplined_fillWindow (w : Window) (bytes : List Byte) :
    Disciplined q (runLines [setWindowOp w, sendPix bytes]) :=
  disciplined_pair (disciplined_setWindowOp w) (disciplined_sendPix bytes)

theorem disciplined_clearOp (color : Half) : Disciplined q (clearOp color) :=
  disciplined_whenReady fun s hs => disciplined_fillWindow _ _ s hs

theorem disciplined_drawOp (x y roww : Half) (bytes : List Byte) : Disciplined q (drawOp x y roww bytes) :=
  disciplined_whenReady fun s hs => by
    split
    · exact disciplined_raise _ s hs
    · exact disciplined_fillWindow _ _ s hs

/-! ### Every instruction the decoder yields -/

theorem perform_cutShort {f : Op} {s t : State} (hf : Disciplined s.params f) (h : perform f s = .next t) :
    ∃ es, t.trace = s.trace ++ es ∧ CutShort s.params es := by
  obtain ⟨u, r, es, hfs, -, hue, hcut, -⟩ := hf s rfl
  cases h
  exact ⟨es, by rw [respond_trace, hfs, hue], hcut⟩

/-- The trace of a well-formed instruction that is not internal; of the wire frames MADCTL alone rests on well-formedness. -/
theorem exec_cutShort {i : Instr} {s t : State} (hw : i.wf s.params = true) (hi : i.internal = false)
    (h : exec i s = .next t) : ∃ es, t.trace = s.trace ++ es ∧ CutShort s.params es := by
  cases i with
  | reset => exact perform_cutShort disciplined_resetOp h
  | initialise => exact perform_cutShort disciplined_initOp h
  | setOrientation o => exact perform_cutShort (disciplined_setOrientationOp o) h
  | setOffset dx dy => exact perform_cutShort (disciplined_writeOffset dx dy) h
  | setWindow x0 y0 x1 y1 => exact perform_cutShort (disciplined_setWindowOp _) h
  | writePixels bytes => exact perform_cutShort (disciplined_whenReady (disciplined_sendPix bytes)) h
  | clear color => exact perform_cutShort (disciplined_clearOp color) h
  | draw x y roww bytes => exact perform_cutShort (disciplined_drawOp x y roww bytes) h
  | reservedHost => cases hw
  | busWrite | hwReset | sendCmd | sendPix => cases hi
  | swreset => exact perform_cutShort (disciplined_sendOther .swreset _ (by decide)) h
  | slpout => exact perform_cutShort (disciplined_sendOther .slpout _ (by decide)) h
  | invon => exact perform_cutShort (disciplined_sendOther .invon _ (by decide)) h
  | dispon => exact perform_cutShort (disciplined_sendOther .dispon _ (by decide)) h
  | caset => exact perform_cutShort (disciplined_sendOther .caset _ (by decide)) h
  | raset => exact perform_cutShort (disciplined_sendOther .raset _ (by decide)) h
  | ramwr => exact perform_cutShort (disciplined_sendOther .ramwr _ (by decide)) h
  | pixfmt => exact perform_cutShort (disciplined_sendOther .pixfmt _ (by decide)) h
  | madctl arg => exact perform_cutShort (disciplined_sendMadctl (of_decide_eq_true hw)) h
  | pixels bytes => exact perform_cutShort (disciplined_sendPix bytes) h

end

/-- Settles O56: a step idles, or runs an instruction the decoder yields, whose trace is orderly up to where a fault cuts
it short. Where the step runs a wire frame (log 7) this rests on the decoder's refusals (log 13). -/
theorem onlyTheNineCommandBytes : Obligations.OnlyTheNineCommandBytes := by
  intro s t h
  have sent : ∃ es, t.trace = s.trace ++ es ∧ CutShort s.params es := by
    rcases step_cases h with ⟨-, rfl⟩ | ⟨x, rest, i, -, hd, he⟩
    · exact ⟨[], (List.append_nil _).symm, (orderly_nil _).cutShort⟩
    · exact exec_cutShort (s := { s with inputs := rest }) (decode_wf hd) (decode_internal hd) he
  obtain ⟨es, hes, hcut⟩ := sent
  exact ⟨es, hes, hcut.onlyCommands, hcut.onlyOrientationBytes⟩

end Sys2Proof.Machine
end

section
/-! PROOFS. The link's draw as a member of `BusOutcome(n)` (spec/40_bus_transport.md R72), and BUSWRITE under each draw,
held or free (spec/40_bus_transport.md R70, R74). -/

namespace Sys2Proof.Machine

/-! ### The draw -/

theorem clampOutcome_admitted (n : Nat) (o : BusOutcome) : admittedOutcome n (clampOutcome n o) = true := by
  cases o with
  | ok => rfl
  | fault k => exact decide_eq_true (Nat.min_le_right k n)

theorem clampOutcome_of_admitted {n : Nat} {o : BusOutcome} (h : admittedOutcome n o = true) : clampOutcome n o = o := by
  cases o with
  | ok => rfl
  | fault k => exact congrArg BusOutcome.fault (Nat.min_eq_left (of_decide_eq_true h))

theorem outcome_admitted (n : Nat) (s : State) : admittedOutcome n (outcome n s) = true := clampOutcome_admitted n _

theorem outcome_of_link_cons {n : Nat} {s : State} {o : BusOutcome} {l : List BusOutcome} (hl : s.link = o :: l)
    (h : admittedOutcome n o = true) : outcome n s = o := by
  rw [outcome, hl, List.headD_cons, clampOutcome_of_admitted h]

theorem outcome_of_link_nil {n : Nat} {s : State} (hl : s.link = []) :
    outcome n s = clampOutcome n (Config.linkOutcome s.draws) := by
  rw [outcome, hl, List.headD_nil]

/-- A fault that is drawn is drawn after at most the bytes of the call. -/
theorem le_of_outcome_fault {n k : Nat} {s : State} (h : outcome n s = .fault k) : k ≤ n := by
  have hadm : admittedOutcome n (.fault k) = true := h ▸ outcome_admitted n s
  exact of_decide_eq_true hadm

/-- Settles O9: a draw is an answer clamped to `BusOutcome(n)`, and clamping leaves every member as it is, so a member can
be drawn by being held. That answers are held at all is log 3's. -/
theorem drawIsAnyMemberOfBusOutcome : Obligations.DrawIsAnyMemberOfBusOutcome :=
  ⟨outcome_admitted, fun _ _ o h => ⟨[o], outcome_of_link_cons rfl h⟩, fun _ _ _ _ => outcome_of_link_cons,
    fun _ _ => outcome_of_link_nil⟩

/-! ### BUSWRITE under its draw -/

theorem busWrite_of_outcome_ok {bs : List Byte} {s : State} (h : outcome bs.length s = .ok) :
    busWrite bs s = (s.sent (transactionEvents bs) s.dc 1, .ok) := by
  rw [busWrite_eq, h, sentOf, List.take_length]
  rfl

theorem busWrite_of_outcome_fault {bs : List Byte} {s : State} {k : Nat} (h : outcome bs.length s = .fault k) :
    busWrite bs s = (cutOff (s.sent (transactionEvents (bs.take k)) s.dc 1), .err .busFault) := by
  rw [busWrite_eq, h]
  rfl

theorem exec_busWrite (bs : List Byte) (s : State) : exec (.busWrite bs) s = .next (respond (busWrite bs s)) := rfl

/-- Settles O8, by cases on the draw: after a fault the witness for the controller is the one `cutOff` leaves. -/
theorem busWriteFollowsItsDraw : Obligations.BusWriteFollowsItsDraw := by
  refine ⟨fun _ _ => rfl, fun s bs => ?_⟩
  cases h : outcome bs.length s with
  | ok =>
    rw [exec_busWrite, busWrite_of_outcome_ok h]
    rfl
  | fault k =>
    refine ⟨le_of_outcome_fault h, (cutOff (s.sent (transactionEvents (bs.take k)) s.dc 1)).periph, rfl, rfl, ?_⟩
    rw [exec_busWrite, busWrite_of_outcome_fault h]
    rfl

end Sys2Proof.Machine
end

section
/-! PROOFS. The Framer's operations (spec/41_framer.md R80 to R85): SENDCMD and SENDPIX under the answers the link gives,
each fault as the frame it cuts off; HWRESET; and the shape of the pin trace. -/

namespace Sys2Proof.Machine

/-- Settles O47: a step idles or runs an operation that breaks nothing, and `Steady` appends a well-framed piece to the
trace, whole or cut off by a fault. -/
theorem stepsKeepTheTraceWellFramed : Obligations.StepsKeepTheTraceWellFramed := by
  intro s t hs h
  rcases step_answered h with ⟨-, rfl⟩ | ⟨x, rest, -, u, r, hu, rfl⟩
  · exact hs
  · obtain ⟨es, he, hw⟩ := hu.trace
    rw [respond_trace, he]
    exact wellFramed_append hs hw

theorem perform_of_eq {f : Op} {s : State} {r : State × Result} (h : f s = r) : perform f s = .next (respond r) := by
  rw [perform, h]

/-! ### Frames cut off by a fault (spec/41_framer.md R83) -/

/-- A drive of `dc` joins the events sent after it. -/
theorem sent_driveDc (m : DcMode) (s : State) (es : List Event) (n : Nat) :
    (driveDc m s).sent es m n = s.sent (.dc m :: es) m n := by
  simp [State.sent, driveDc_eq, Periph.replay, modeAfter, Periph.onEvent]

theorem busWrite_driveDc_fault {bs : List Byte} {s : State} {m : DcMode} {k : Nat}
    (h : s.link.head? = some (.fault k)) (hk : k ≤ bs.length) :
    busWrite bs (driveDc m s) = (cutOff (s.sent (.dc m :: transactionEvents (bs.take k)) m 1), .err .busFault) := by
  rw [busWrite_of_outcome_fault (outcome_fault (by simpa using h) hk), driveDc_dc, sent_driveDc]

/-- A fault of the command phase: there is no data phase. -/
theorem sendCmd_commandFault {op : Byte} {args : List Byte} {s : State} {k : Nat}
    (h : s.link.head? = some (.fault k)) (hk : k ≤ 1) :
    sendCmd op args s = (cutOff (s.sent (.dc .C :: transactionEvents ([op].take k)) .C 1), .err .busFault) :=
  andThen_err (busWrite_driveDc_fault h hk)

/-- A fault of the data phase: the command has gone out whole. -/
theorem sendCmd_dataFault {op : Byte} {args : List Byte} {s : State} {k : Nat} {l : List BusOutcome}
    (hl : s.link = .ok :: .fault k :: l) (ha : args ≠ []) (hk : k ≤ args.length) :
    sendCmd op args s =
      (cutOff (s.sent ((.dc .C :: transactionEvents [op]) ++ .dc .D :: transactionEvents (args.take k)) .D 2),
        .err .busFault) := by
  unfold sendCmd
  rw [andThen_ok (f := fun s => busWrite [op] (driveDc .C s)) (busWrite_driveDc_ok (by simp [hl])), if_neg ha,
    busWrite_driveDc_fault (by simp [hl]) hk]
  congr 2
  exact sent_sent _ _ _ _ _ _ _ (by simp [modeAfter, modeAfter_transaction])

theorem sendPix_fault {bytes : List Byte} {s : State} {k : Nat} (h : s.link.head? = some (.fault k))
    (hk : k ≤ bytes.length) :
    sendPix bytes s = (cutOff (s.sent (pixelEvents (bytes.take k)) .D 1), .err .busFault) :=
  busWrite_driveDc_fault h hk

/-- An operation that was cut off, as the instruction's next state: of the controller it is said only that it is `Unknown`
and its frame memory forgotten (spec/93_implementation_defined.md U2). -/
theorem perform_cutOff {f : Op} {s u : State} (h : f s = (cutOff u, .err .busFault)) :
    ∃ p : Periph, p.pmode = .unknown ∧ p.fm = [] ∧
      perform f s = .next (respond ({ u with periph := p }, .err .busFault)) :=
  ⟨u.periph.lose, rfl, rfl, perform_of_eq h⟩

/-! ### The statements about the Framer's operations -/

/-- Settles O11: without arguments the frame is one transfer, with arguments two. -/
theorem sendCommandFrames : Obligations.SendCommandFrames := by
  intro s op args
  refine ⟨?_, fun ha h => ?_⟩
  · rintro rfl h
    exact perform_sendCmd_ok (args := []) h
  · have hf : commandEvents op args = (.dc .C :: transactionEvents [op]) ++ .dc .D :: transactionEvents args := by
      rw [commandEvents, if_neg ha]
    have hs := sendCmd_args_ok (op := op) ha h
    rw [hf] at hs
    exact perform_of_eq hs

/-- Settles O12: the frame is cut off in its first transfer or in its second. -/
theorem sendCommandFaultStopsTheFrame : Obligations.SendCommandFaultStopsTheFrame := by
  intro s op args k l
  refine ⟨fun hl hk => ?_, fun hl ha hk => ?_⟩
  · exact perform_cutOff (sendCmd_commandFault (by simp [hl]) hk)
  · exact perform_cutOff (sendCmd_dataFault hl ha hk)

/-- Settles O13: one transfer for the whole payload, which goes out or is cut off. -/
theorem sendPixelsStreams : Obligations.SendPixelsStreams := by
  refine ⟨fun _ _ => rfl, fun s bytes => ⟨perform_sendPix_ok, fun k l hl hk => ?_⟩⟩
  exact perform_cutOff (sendPix_fault (by simp [hl]) hk)

/-- Settles O10: the pulse is the same from either level of `rst`, and no transfer is made that could fail. -/
theorem hardwareResetPulse : Obligations.HardwareResetPulse :=
  ⟨fun _ => rfl, fun s => perform_of_eq (hwReset_eq s)⟩

end Sys2Proof.Machine
end

section
/-! PROOFS. RESET and INITIALIZE (spec/42_controller.md R90, R91, R98): all that INITIALIZE can do, whatever the link
answers, is to send its whole fixed trace and end in Ready, or to be cut off on the way and stay in AwaitingInit
(`initOp_cases`). -/

namespace Sys2Proof.Machine

/-! ### RESET -/

theorem resetOp_eq (s : State) :
    resetOp s =
      ({ s with rst := .high, fsm := .awaitingInit, trace := s.trace ++ resetPulse,
                periph := s.periph.replay s.params s.dc resetPulse }, .ok) := by
  rw [resetOp, runLines_cons_ok (hwReset_eq s)]
  rfl

/-- Settles O14: the pulse makes no transfer that could fail, and the line after it sets `fsm` alone. -/
theorem resetLeavesAwaitingInit : Obligations.ResetLeavesAwaitingInit :=
  ⟨fun _ => rfl, fun s => perform_of_eq (resetOp_eq s)⟩

/-! ### INITIALIZE on a fault-free link -/

/-- The state INITIALIZE leaves when its whole trace has gone out. -/
def initialised (s : State) : State :=
  { s.sent (initEvents s.params s.cfg) .C (initTransfers s.cfg) with rst := .high, fsm := .ready }

theorem exec_initialise_ok {s : State} (h : LinkOk (initTransfers s.cfg) s) :
    exec .initialise s = .next (respond (initialised s, .ok)) := perform_of_eq (initOp_ok h)

/-- Settles O15: the eight steps of R91 are `initEvents`, written out. -/
theorem initialiseRunsFixedSequence : Obligations.InitialiseRunsFixedSequence := fun _ => exec_initialise_ok

/-- Settles O59: the first run leaves the configuration as it was and half of the answers on the link, so the second sends
the same events. -/
theorem initialiseTwiceSendsTheSame : Obligations.InitialiseTwiceSendsTheSame := by
  intro s hl
  have both : LinkOk (initTransfers s.cfg + initTransfers s.cfg) s := by
    cases hi : s.cfg.invert <;> simpa [initTransfers, hi] using hl
  have second : LinkOk (initTransfers s.cfg) (initialised s) := both.sent (initEvents s.params s.cfg) .C
  exact ⟨_, _, initEvents s.params s.cfg, exec_initialise_ok both.first,
    exec_initialise_ok (s := respond (initialised s, .ok)) second, rfl, rfl, List.append_assoc _ _ _⟩

/-! ### INITIALIZE whatever the link answers -/

/-- Where no transfer is made, nothing can fail. -/
theorem Sends.traffics {f : Op} {es : List Event} {m : DcMode} {s : State} (h : Sends f es m 0 s) :
    Traffics f es m 0 s := .inl (h rfl)

theorem traffics_invert (q : Params) (c : PanelCfg) {s : State} (h : s.cs = .released) :
    Traffics (if c.invert then sendCmd q.opc.invon [] else line id)
      (if c.invert then commandEvents q.opc.invon [] else []) (if c.invert then .C else s.dc)
      (if c.invert then 1 else 0) s := by
  cases c.invert with
  | true => exact traffics_sendCmd q.opc.invon [] s
  | false => exact (sends_nothing h).traffics

theorem traffics_initCommands (q : Params) (c : PanelCfg) (s : State) :
    Traffics (runLines (initCommands q c)) (initCommandEvents q c) .C (initTransfers c) s := by
  have h := traffics_cons (modeAfter_sendCmd _ _ _) (traffics_sendCmd q.opc.swreset [] s) <|
    traffics_cons rfl (sends_delay .swreset rfl).traffics <|
    traffics_cons (modeAfter_sendCmd _ _ _) (traffics_sendCmd q.opc.slpout [] _) <|
    traffics_cons rfl (sends_delay .slpout rfl).traffics <|
    traffics_cons (modeAfter_sendCmd _ _ _) (traffics_sendCmd q.opc.pixfmt [pixfmtArgOf q c.bgr] _) <|
    traffics_cons (by cases c.invert; exacts [rfl, modeAfter_sendCmd _ _ _]) (traffics_invert q c rfl) <|
    traffics_last (traffics_sendCmd q.opc.dispon [] _)
  have hn : initTransfers c = 1 + (0 + (1 + (0 + (2 + ((if c.invert then 1 else 0) + 1))))) := by
    cases hc : c.invert <;> simp [initTransfers, hc]
  rw [hn]
  exact h

theorem runLines_append_err {fs : List Op} {s t : State} {k : ErrKind} (h : runLines fs s = (t, .err k))
    (gs : List Op) : runLines (fs ++ gs) s = (t, .err k) := by
  induction fs generalizing s with
  | nil => cases h
  | cons f fs ih =>
    cases hf : f s with
    | mk u r =>
      cases r with
      | ok => rw [List.cons_append, runLines_cons_ok hf, ih (runLines_cons_ok hf ▸ h)]
      | err j => rw [← h, List.cons_append, runLines_cons_err hf, runLines_cons_err hf]

/-- The state INITIALIZE leaves when a transfer fails: the pulse and the events `pre` have gone out, and chip-select is
released. -/
def initCutOff (s : State) (pre : List Event) (m : DcMode) (n : Nat) : State :=
  cutOff ((setFsm .awaitingInit (hwReset s).1).sent (pre ++ [.cs .released]) m n)

/-- All that INITIALIZE can do, whatever the link answers: the pulse makes no transfer, the commands go out whole or are
cut off, and the line that sets Ready is reached only after them. -/
theorem initOp_cases (s : State) :
    initOp s = (initialised s, .ok) ∨
    ∃ pre m n, pre <+: initCommandEvents s.params s.cfg ∧ initOp s = (initCutOff s pre m n, .err .busFault) := by
  have start : initOp s =
      runLines (initCommands s.params s.cfg ++ [line (setFsm .ready)]) (setFsm .awaitingInit (hwReset s).1) := rfl
  rw [start]
  rcases traffics_initCommands s.params s.cfg (setFsm .awaitingInit (hwReset s).1) with h | ⟨pre, m, n, hp, h⟩
  · left
    have mode : resetPulse.foldl modeAfter s.dc = s.dc := rfl
    rw [runLines_append_ok h, runLines_cons_ok (line_apply _ _), runLines_nil, hwReset_eq, initialised, initEvents_eq]
    simp [State.sent, setFsm, replay_append, mode]
  · exact .inr ⟨pre, m, n, hp, runLines_append_err h _⟩

/-- INITIALIZE as an instruction: Ok and Ready, or BusFault from a state cut off on the way. -/
theorem exec_initialise_cases {s t : State} (h : exec .initialise s = .next t) :
    t = respond (initialised s, .ok) ∨
    ∃ pre m n, pre <+: initCommandEvents s.params s.cfg ∧ t = respond (initCutOff s pre m n, .err .busFault) := by
  have hrun : exec .initialise s = .next (respond (initOp s)) := rfl
  rw [hrun, Host.Outcome.next.injEq] at h
  rcases initOp_cases s with ho | ⟨pre, m, n, hp, ho⟩
  · exact .inl (by rw [← h, ho])
  · exact .inr ⟨pre, m, n, hp, by rw [← h, ho]⟩

/-- Settles O16: a run that does not end Ok was cut off, after the whole pulse and a piece of the commands' events. -/
theorem initialiseFaultIsFatal : Obligations.InitialiseFaultIsFatal := by
  intro s t h hr
  rcases exec_initialise_cases h with rfl | ⟨pre, m, n, hp, rfl⟩
  · exact absurd rfl hr
  · have piece : resetPulse ++ pre <+: initEvents s.params s.cfg := by
      rw [initEvents_eq]
      exact (List.prefix_append_right_inj _).mpr hp
    refine ⟨rfl, rfl, rfl, rfl, rfl, rfl, rfl, rfl, resetPulse ++ pre, piece, ?_⟩
    simp [initCutOff, cutOff, hwReset_eq]

/-! ### The lifecycle -/

/-- Settles O52: RESET and INITIALIZE by what they leave; of every other instruction `exec_effect` says that it writes no
`fsm`, and HWRESET is the pulse alone. -/
theorem lifecycleTransitions : Obligations.LifecycleTransitions := by
  intro s t i h
  cases i with
  | reset => cases h; rfl
  | hwReset => cases h; rfl
  | initialise =>
    rcases exec_initialise_cases h with rfl | ⟨pre, m, n, -, rfl⟩
    · exact .inl ⟨rfl, rfl⟩
    · exact .inr ⟨rfl, rfl⟩
  | _ => exact (exec_effect h).fsm

end Sys2Proof.Machine
end

section
/-! PROOFS. The setters, SET_WINDOW, WRITE_PIXELS and CLEAR (spec/42_controller.md R92 to R96): each on a fault-free link;
when CLEAR's window lies in the panel; and what CLEAR leaves in frame memory (spec/20_memory.md R50). -/

namespace Sys2Proof.Machine

/-! ### The setters -/

theorem setOrientationOp_ok {s : State} (o : Orientation) (hr : s.fsm = .ready) (h : LinkOk 2 s) :
    setOrientationOp o s =
      (setOrient o (s.sent (commandEvents s.params.opc.madctl [madctlArgOf s.params o]) .D 2), .ok) := by
  rw [setOrientationOp, whenReady_ready hr, runLines_cons_ok (sendCmd_args_ok (List.cons_ne_nil _ _) h)]
  rfl

/-- Settles O17: the command goes out whole, and only then is `orient` written. -/
theorem setOrientationSendsAndRecords : Obligations.SetOrientationSendsAndRecords :=
  fun _ o hr hl => perform_of_eq (setOrientationOp_ok o hr hl)

/-- Settles O18: the meaning is one line that writes the pair. -/
theorem setOffsetIsLocal : Obligations.SetOffsetIsLocal := ⟨fun _ _ _ => rfl, fun _ _ _ => rfl⟩

/-! ### The window and the stream -/

/-- Settles O19: the window as given, relocated, is the physical window of the premise. -/
theorem setWindowProgramsController : Obligations.SetWindowProgramsController := by
  rintro s x0 y0 x1 y1 _ _ _ _ rfl rfl rfl rfl hr hi hl
  have inside : insidePanel s.cfg (relocate s.offset (windowOf x0 y0 x1 y1)) = true := (insidePanel_iff _ _).mpr hi
  exact perform_of_eq (setWindowOp_ok hr inside hl)

/-- Settles O21: one transfer for the whole payload. -/
theorem writePixelsStreams : Obligations.WritePixelsStreams := fun _ _ => exec_writePixels_ok

/-- The trace of CLEAR's and DRAW's lines: the window program of a physical window, then the stream. -/
def fillEvents (q : Params) (w : Window) (bytes : List Byte) : List Event :=
  windowEvents q w.x0.toNat w.y0.toNat w.x1.toNat w.y1.toNat ++ pixelEvents bytes

/-- All that CLEAR's and DRAW's lines can do to a window in the panel. -/
theorem traffics_fillWindow {w : Window} {s : State} (bytes : List Byte) (hr : s.fsm = .ready)
    (hi : insidePanel s.cfg (relocate s.offset w) = true) :
    Traffics (runLines [setWindowOp w, sendPix bytes]) (fillEvents s.params (relocate s.offset w) bytes) .D 6 s :=
  traffics_cons (modeAfter_window _ _ _ _ _ _) (traffics_setWindowOp hr hi) (traffics_last (traffics_sendPix bytes _))

/-- CLEAR's and DRAW's lines on a fault-free link. -/
theorem fillWindow_ok {w : Window} {s : State} (bytes : List Byte) (hr : s.fsm = .ready)
    (hi : insidePanel s.cfg (relocate s.offset w) = true) (h : LinkOk 6 s) :
    runLines [setWindowOp w, sendPix bytes] s =
      (s.sent (fillEvents s.params (relocate s.offset w) bytes) .D 6, .ok) :=
  sends_cons (modeAfter_window _ _ _ _ _ _) (setWindowOp_ok hr hi)
    (sends_last fun hl => sendPix_ok (LinkOk.head (n := 0) hl)) h

/-- CLEAR's and DRAW's lines for a window outside the panel: nothing goes out. -/
theorem fillWindow_outside {w : Window} {s : State} (bytes : List Byte) (hr : s.fsm = .ready)
    (hi : ¬ insidePanel s.cfg (relocate s.offset w) = true) :
    runLines [setWindowOp w, sendPix bytes] s = (s, .err .boundsError) :=
  runLines_cons_err (setWindowOp_outside hr hi)

/-! ### CLEAR -/

/-- Traffic ends Ok or with BusFault, no other kind. -/
theorem Traffics.result {f : Op} {es : List Event} {m : DcMode} {n : Nat} {s : State} (h : Traffics f es m n s) :
    (f s).2 = .ok ∨ (f s).2 = .err .busFault := by
  rcases h with h | ⟨_, _, _, -, h⟩
  · exact .inl (congrArg Prod.snd h)
  · exact .inr (congrArg Prod.snd h)

theorem perform_result {f : Op} {s t : State} (h : perform f s = .next t) : t.results.getLast? = some (f s).2 := by
  cases h
  simp

theorem exec_clear {s : State} (color : Half) (hr : s.fsm = .ready) :
    exec (.clear color) s =
      perform (runLines [setWindowOp (fullPanel s.cfg), sendPix (colourBytes (s.cfg.width * s.cfg.height) color)]) s :=
  congrArg (fun r => Host.Outcome.next (respond r)) (whenReady_ready hr)

theorem relocate_zero (w : Window) : relocate { dx := 0, dy := 0 } w = w := by
  simp [relocate]

/-- Both corners of the full panel stay inside it only if it does not move (spec/70_reset_and_hazards.md R145). -/
theorem insidePanel_fullPanel {c : PanelCfg} (hc : c.wf) (o : Offset) :
    insidePanel c (relocate o (fullPanel c)) = true ↔ o = { dx := 0, dy := 0 } := by
  obtain ⟨⟨hw, -⟩, hh, -⟩ := hc
  rw [insidePanel_iff]
  constructor
  · obtain ⟨dx, dy⟩ := o
    rintro ⟨⟨hx0, -⟩, ⟨-, hx1⟩, ⟨hy0, -⟩, -, hy1⟩
    simp only [relocate, fullPanel] at hx0 hx1 hy0 hy1
    have hdx : dx.toInt = (0 : Half).toInt := by simp; omega
    have hdy : dy.toInt = (0 : Half).toInt := by simp; omega
    rw [BitVec.eq_of_toInt_eq hdx, BitVec.eq_of_toInt_eq hdy]
  · rintro rfl
    rw [relocate_zero]
    simp only [InPanel, fullPanel]
    omega

/-- CLEAR on a fault-free link: the full panel's window, then its every pixel the colour. -/
theorem exec_clear_ok {s : State} (color : Half) (hc : s.cfg.wf) (hr : s.fsm = .ready)
    (ho : s.offset = { dx := 0, dy := 0 }) (h : LinkOk 6 s) :
    exec (.clear color) s =
      .next (respond (s.sent (windowEvents s.params 0 0 (s.cfg.width - 1) (s.cfg.height - 1) ++
        pixelEvents (colourBytes (s.cfg.width * s.cfg.height) color)) .D 6, .ok)) := by
  have inside := (insidePanel_fullPanel hc s.offset).mpr ho
  have last (n : Nat) : ((n : Int) - 1).toNat = n - 1 := by omega
  rw [exec_clear color hr, perform_of_eq (fillWindow_ok _ hr inside h), ho, relocate_zero]
  simp only [fillEvents, fullPanel, last, Int.toNat_zero]

/-- Settles O22: `colourBytes` is the colour's two bytes, repeated. -/
theorem clearStreamsWholePanel : Obligations.ClearStreamsWholePanel :=
  fun _ color hc hr ho hl => exec_clear_ok color hc hr ho hl

/-- Settles O23: under a zero offset the window lies in the panel, and traffic ends Ok or with BusFault; under any other
it does not, and nothing goes out. -/
theorem clearFailsExactlyUnderOffset : Obligations.ClearFailsExactlyUnderOffset := by
  intro s color hc hr
  rw [exec_clear color hr]
  constructor
  · intro h ho
    have inside := (insidePanel_fullPanel hc s.offset).mpr ho
    have answer := perform_result h
    rcases (traffics_fillWindow (colourBytes (s.cfg.width * s.cfg.height) color) hr inside).result with hf | hf
    · simp [hf] at answer
    · simp [hf] at answer
  · intro ho
    exact perform_of_eq (fillWindow_outside _ hr (mt (insidePanel_fullPanel hc s.offset).mp ho))

/-! ### What CLEAR leaves in frame memory -/

/-- A cell lies in the window of `w` columns and `h` rows whose first cell is `(xs, ys)`. -/
def InWindow (xs ys : Half) (w h : Nat) (c : Half × Half) : Prop :=
  (xs.toNat ≤ c.1.toNat ∧ c.1.toNat < xs.toNat + w) ∧ ys.toNat ≤ c.2.toNat ∧ c.2.toNat < ys.toNat + h

theorem rasterCell_inWindow {xs ys : Half} {w h k : Nat} (hx : xs.toNat + w ≤ 65536) (hy : ys.toNat + h ≤ 65536)
    (hk : k < w * h) : InWindow xs ys w h (rasterCell xs ys w k) := by
  have hm : k % w < w := Nat.mod_lt k (Nat.pos_of_mul_pos_right (Nat.zero_lt_of_lt hk))
  have hd : k / w < h := Nat.div_lt_of_lt_mul hk
  have hu : (xs.toNat + k % w) % 65536 = xs.toNat + k % w := Nat.mod_eq_of_lt (by omega)
  have hv : (ys.toNat + k / w) % 65536 = ys.toNat + k / w := Nat.mod_eq_of_lt (by omega)
  simp [InWindow, rasterCell, hu, hv, hm, hd]

/-- Every cell of a window is reached in raster order. -/
theorem rasterCell_index {xs ys u v : Half} {w h i j : Nat} (hu : u.toNat = xs.toNat + i) (hv : v.toNat = ys.toNat + j)
    (hi : i < w) (hj : j < h) : w * j + i < w * h ∧ rasterCell xs ys w (w * j + i) = (u, v) := by
  constructor
  · calc w * j + i < w * (j + 1) := by rw [Nat.mul_succ]; omega
      _ ≤ w * h := Nat.mul_le_mul_left w hj
  · rw [rasterCell, Nat.mul_add_mod, Nat.mul_add_div (Nat.zero_lt_of_lt hi), Nat.mod_eq_of_lt hi, Nat.div_eq_of_lt hi,
      Nat.add_zero, ← hu, ← hv, BitVec.ofNat_toNat, BitVec.ofNat_toNat, BitVec.setWidth_eq, BitVec.setWidth_eq]

/-- A stream of the window's size leaves every cell outside the window as it was. -/
theorem fillFrom_outside {xs ys u v : Half} {w h : Nat} (hx : xs.toNat + w ≤ 65536) (hy : ys.toNat + h ≤ 65536)
    {bytes : List Byte} (hb : bytes.length = 2 * (w * h)) (m : Memory) (ho : ¬ InWindow xs ys w h (u, v)) :
    (fillFrom xs ys w 0 m bytes).cell u v = m.cell u v :=
  fillFrom_other xs ys w (w * h) 0 bytes hb m (u, v) fun _ _ hk he =>
    ho (he ▸ rasterCell_inWindow hx hy (by rwa [Nat.zero_add] at hk))

theorem colourBytes_succ (n : Nat) (color : Half) :
    colourBytes (n + 1) color = hiByte color :: loByte color :: colourBytes n color := by
  simp [colourBytes, List.replicate_succ, be16_toNat]

/-- Every pixel of CLEAR's stream is the colour, high byte first (spec/30_encoding.md R64). -/
theorem colourBytes_pixel {n j : Nat} (color : Half) (hj : j < n) :
    (colourBytes n color).getD (2 * j) 0 ++ (colourBytes n color).getD (2 * j + 1) 0 = color := by
  induction n generalizing j with
  | zero => omega
  | succ n ih =>
    rw [colourBytes_succ]
    cases j with
    | zero => exact hiByte_append_loByte color
    | succ j => exact ih (Nat.lt_of_succ_lt_succ hj)

/-- A window filled with one colour. -/
theorem cell_fill_colour {w h : Nat} (hw : w ≤ 65536) (hh : h ≤ 65536) (color : Half) (m : Memory) (u v : Half) :
    (fillFrom 0 0 w 0 m (colourBytes (w * h) color)).cell u v =
      if u.toNat < w ∧ v.toNat < h then some color else m.cell u v := by
  have bx : (0 : Half).toNat + w ≤ 65536 := (Nat.zero_add w).trans_le hw
  have bY : (0 : Half).toNat + h ≤ 65536 := (Nat.zero_add h).trans_le hh
  have len := colourBytes_length (w * h) color
  split_ifs with hi
  · obtain ⟨hk, hcell⟩ := rasterCell_index (xs := 0) (ys := 0) (u := u) (v := v) (Nat.zero_add _).symm
      (Nat.zero_add _).symm hi.1 hi.2
    have pixel := fillFrom_cell 0 0 w h (w * h) 0 bx bY _ len (Nat.zero_add _).le m _ hk
    rwa [Nat.zero_add, hcell, colourBytes_pixel color hk] at pixel
  · exact fillFrom_outside bx bY len m (by simpa [InWindow] using hi)

/-- Settles O44: the stream has exactly the size of the full panel, whose first cell is (0, 0). -/
theorem clearFillsThePanel : Obligations.ClearFillsThePanel := by
  intro s color hq hc ⟨hawake, hbetween, hwhole⟩ hf hr ho hl
  have ⟨⟨hw, hw'⟩, hh, hh'⟩ := hc
  have run := replay_window_pixels s.dc hq hawake hbetween hwhole hf (X0 := 0) (Y0 := 0) hw hh (by omega) (by omega) _
    (colourBytes_length (s.cfg.width * s.cfg.height) color)
  rw [Nat.zero_add, Nat.zero_add] at run
  refine ⟨_, exec_clear_ok color hc hr ho hl, rfl, ?_, fun u v => ?_⟩
  all_goals rw [respond_periph, sent_periph, run]
  · exact hawake
  · exact cell_fill_colour (by omega) (by omega) color s.periph.fm u v

end Sys2Proof.Machine
end

section
/-! PROOFS. DRAW of a well-shaped bitmap (spec/43_blit.md R100 to R103): its lines are those CLEAR and DRAW share, on the
destination rectangle; and what it leaves in frame memory (spec/20_memory.md R50). -/

namespace Sys2Proof.Machine

/-! ### DRAW's lines -/

/-- In Ready a well-shaped bitmap passes both of DRAW's checks. -/
theorem exec_draw {s : State} {roww : Half} {bytes : List Byte} (x y : Half) (hr : s.fsm = .ready)
    (hs : WellShaped bytes roww) :
    exec (.draw x y roww bytes) s =
      perform (runLines [setWindowOp (destination x y roww (bytes.length / 2 / roww.toNat)), sendPix bytes]) s := by
  have lines : drawOp x y roww bytes s =
      runLines [setWindowOp (destination x y roww (bytes.length / 2 / roww.toNat)), sendPix bytes] s := by
    rw [drawOp, whenReady_ready hr, bitmapShape_some hs]
  exact congrArg (fun r => Host.Outcome.next (respond r)) lines

/-- Settles O24: the destination rectangle, relocated, is the physical window of the premise. -/
theorem drawStreamsBitmap : Obligations.DrawStreamsBitmap := by
  rintro s x y roww bytes _ _ _ _ rfl rfl rfl rfl hr hs hi hl
  have inside := (insidePanel_iff s.cfg (relocate s.offset (destination x y roww _))).mpr hi
  exact (exec_draw x y hr hs).trans (perform_of_eq (fillWindow_ok bytes hr inside hl))

/-- Settles O26: the window's bounds check fails before anything goes out. -/
theorem drawOutsidePanelFails : Obligations.DrawOutsidePanelFails := by
  rintro s x y roww bytes _ _ _ _ rfl rfl rfl rfl hr hs hi
  have outside := mt (insidePanel_iff s.cfg (relocate s.offset (destination x y roww _))).mp hi
  exact (exec_draw x y hr hs).trans (perform_of_eq (fillWindow_outside bytes hr outside))

/-! ### What DRAW leaves in frame memory -/

/-- A well-shaped bitmap is a whole rectangle: its rows times its row width make up its pixels, two bytes each. -/
theorem WellShaped.rectangle {bytes : List Byte} {roww : Half} (hs : WellShaped bytes roww) :
    0 < roww.toNat ∧ 0 < bytes.length / 2 / roww.toNat ∧
    roww.toNat * (bytes.length / 2 / roww.toNat) = bytes.length / 2 ∧
    bytes.length = 2 * (roww.toNat * (bytes.length / 2 / roww.toNat)) := by
  obtain ⟨hroww, heven, hpixels, hwhole⟩ := hs
  have area := Nat.mul_div_cancel' (Nat.dvd_of_mod_eq_zero hwhole)
  refine ⟨Nat.pos_of_ne_zero fun h => hroww (BitVec.eq_of_toNat_eq h), Nat.pos_of_ne_zero fun h => hpixels ?_, area, ?_⟩
  · rw [← area, h, Nat.mul_zero]
  · omega

/-- The first coordinate of a side that ends within 16 bits is a 16-bit quantity. -/
theorem toNat_firstCorner {X w : Nat} (hw : 0 < w) (bx : X + w ≤ 65536) : (BitVec.ofNat 16 X : Half).toNat = X :=
  Nat.mod_eq_of_lt (by omega)

section
variable {X0 Y0 w h : Nat} (hw : 0 < w) (hh : 0 < h) (bx : X0 + w ≤ 65536) (bY : Y0 + h ≤ 65536) {bytes : List Byte}
  (hb : bytes.length = 2 * (w * h)) (m : Memory)
include hw hh bx bY hb

/-- The `j`-th pixel of a bitmap streamed into its rectangle (spec/43_blit.md R103). -/
theorem fillFrom_pixel {j : Nat} (hj : j < w * h) :
    (fillFrom (BitVec.ofNat 16 X0) (BitVec.ofNat 16 Y0) w 0 m bytes).cell (BitVec.ofNat 16 (X0 + j % w))
      (BitVec.ofNat 16 (Y0 + j / w)) = some (bytes.getD (2 * j) 0 ++ bytes.getD (2 * j + 1) 0) := by
  have eX := toNat_firstCorner hw bx
  have eY := toNat_firstCorner hh bY
  have pixel := fillFrom_cell (BitVec.ofNat 16 X0) (BitVec.ofNat 16 Y0) w h (w * h) 0 (eX.symm ▸ bx) (eY.symm ▸ bY)
    bytes hb (Nat.zero_add _).le m j hj
  rwa [Nat.zero_add, rasterCell, eX, eY] at pixel

/-- A cell outside the rectangle is as before. -/
theorem fillFrom_outside_rectangle {u v : Half}
    (ho : ¬ ((X0 ≤ u.toNat ∧ u.toNat < X0 + w) ∧ Y0 ≤ v.toNat ∧ v.toNat < Y0 + h)) :
    (fillFrom (BitVec.ofNat 16 X0) (BitVec.ofNat 16 Y0) w 0 m bytes).cell u v = m.cell u v := by
  have eX := toNat_firstCorner hw bx
  have eY := toNat_firstCorner hh bY
  exact fillFrom_outside (eX.symm ▸ bx) (eY.symm ▸ bY) hb m (by rwa [InWindow, eX, eY])

end

/-- Settles O43: the stream has exactly the size of the destination rectangle, which the window program addresses. -/
theorem drawFillsItsRectangle : Obligations.DrawFillsItsRectangle := by
  intro s x y roww bytes X0 Y0 X1 Y1 eX0 eY0 eX1 eY1 hq hc ⟨hawake, hbetween, hwhole⟩ hf hr hs hi hl
  obtain ⟨hw, hh, area, hb⟩ := hs.rectangle
  obtain ⟨hX, hY⟩ := lastCorner_lt hc hi
  have ⟨⟨hx0, _⟩, _, ⟨hy0, _⟩, _⟩ := hi
  have lastColumn : X1.toNat = X0.toNat + roww.toNat - 1 := by omega
  have lastRow : Y1.toNat = Y0.toNat + bytes.length / 2 / roww.toNat - 1 := by omega
  have bx : X0.toNat + roww.toNat ≤ 65536 := by omega
  have bY : Y0.toNat + bytes.length / 2 / roww.toNat ≤ 65536 := by omega
  have run := replay_window_pixels s.dc hq hawake hbetween hwhole hf hw hh bx bY bytes hb
  rw [← lastColumn, ← lastRow] at run
  refine ⟨_, drawStreamsBitmap s x y roww bytes X0 Y0 X1 Y1 eX0 eY0 eX1 eY1 hr hs hi hl, rfl, ?_, ?_, ?_,
    fun j hj => ?_, fun u v ho => ?_⟩
  all_goals rw [respond_periph, sent_periph, run]
  · exact hawake
  · exact hwhole
  · exact fillFrom_pixel hw hh bx bY hb s.periph.fm (by rwa [area])
  · exact fillFrom_outside_rectangle hw hh bx bY hb s.periph.fm (by omega)

end Sys2Proof.Machine
end

section
/-! PROOFS. Errors (spec/60_exceptions.md R110 to R116): a check refuses before anything has changed; and all that a host
operation but INITIALIZE can come to, said once (`exec_cleanEnd`): it ends Ok, a check refuses it, or a failed transfer cuts
it off with no register of the block written. -/

namespace Sys2Proof.Machine

/-! ### The checks, in the order of spec/60_exceptions.md R115 -/

theorem perform_whenReady_early {s : State} (hr : s.fsm ≠ .ready) (f : Op) :
    perform (whenReady f) s = .next (respond (s, .err .sequenceError)) := perform_of_eq (whenReady_early hr)

/-- Settles O27: each of the five is gated, and the gate is its first step. -/
theorem gatedOperationsNeedReady : Obligations.GatedOperationsNeedReady :=
  fun _ hr => ⟨fun _ => perform_whenReady_early hr _, fun _ _ _ _ => perform_whenReady_early hr _,
    fun _ => perform_whenReady_early hr _, fun _ => perform_whenReady_early hr _,
    fun _ _ _ _ => perform_whenReady_early hr _⟩

/-- The shape is checked before the destination is computed. -/
theorem drawOp_malformed {s : State} {roww : Half} {bytes : List Byte} (x y : Half) (hr : s.fsm = .ready)
    (hs : ¬ WellShaped bytes roww) : drawOp x y roww bytes s = (s, .err .malformedInput) := by
  rw [drawOp, whenReady_ready hr, bitmapShape_none hs]
  rfl

/-- Settles O25: a bitmap with no whole rectangle has no shape. -/
theorem drawRefusesMalformedBitmap : Obligations.DrawRefusesMalformedBitmap :=
  fun _ x y _ _ hr hs => perform_of_eq (drawOp_malformed x y hr hs)

/-- Settles O20: the window as given, relocated, is the physical window of the premise. -/
theorem setWindowOutsidePanelFails : Obligations.SetWindowOutsidePanelFails := by
  rintro s x0 y0 x1 y1 _ _ _ _ rfl rfl rfl rfl hr hi
  have outside := mt (insidePanel_iff s.cfg (relocate s.offset (windowOf x0 y0 x1 y1))).mp hi
  exact perform_of_eq (setWindowOp_outside hr outside)

/-! ### How an operation may end -/

/-- An operation started in `s` ends Ok, or refused by a check with nothing changed, or cut off by a failed transfer with
nothing done but its traffic. -/
inductive CleanEnd (s : State) : State × Result → Prop where
  | ok (u : State) : CleanEnd s (u, .ok)
  | refused {k : ErrKind} (h : k ≠ .busFault) : CleanEnd s (s, .err k)
  | faulted (es : List Event) (m : DcMode) (n : Nat) : CleanEnd s (cutOff (s.sent es m n), .err .busFault)

theorem Traffics.cleanEnd {f : Op} {es : List Event} {m : DcMode} {n : Nat} {s : State} (h : Traffics f es m n s) :
    CleanEnd s (f s) := by
  rcases h with h | ⟨_, _, _, -, h⟩ <;> rw [h]
  · exact .ok _
  · exact .faulted _ _ _

theorem cleanEnd_whenReady {f : Op} {s : State} (h : s.fsm = .ready → CleanEnd s (f s)) :
    CleanEnd s (whenReady f s) := by
  by_cases hr : s.fsm = .ready
  · rw [whenReady_ready hr]
    exact h hr
  · rw [whenReady_early hr]
    exact .refused (by decide)

/-- A line that cannot fail, after one that ends cleanly. -/
theorem CleanEnd.andThen_line {f : Op} {s : State} (h : CleanEnd s (f s)) (g : State → State) :
    CleanEnd s (runLines [f, line g] s) := by
  cases hf : f s with
  | mk u r =>
    cases r with
    | ok =>
      rw [runLines_cons_ok hf]
      exact .ok _
    | err k => rwa [runLines_cons_err hf, ← hf]

theorem cleanEnd_setOrientationOp (o : Orientation) (s : State) : CleanEnd s (setOrientationOp o s) :=
  cleanEnd_whenReady fun _ => (traffics_sendCmd _ _ s).cleanEnd.andThen_line (setOrient o)

theorem cleanEnd_setWindowOp (w : Window) (s : State) : CleanEnd s (setWindowOp w s) := by
  refine cleanEnd_whenReady fun _ => ?_
  split_ifs
  · exact (traffics_programWindow _ s).cleanEnd
  · exact .refused (by decide)

/-- CLEAR's and DRAW's lines: where the window's check passes both are traffic, so the check is the only one to refuse. -/
theorem cleanEnd_fillWindow (w : Window) (bytes : List Byte) {s : State} (hr : s.fsm = .ready) :
    CleanEnd s (runLines [setWindowOp w, sendPix bytes] s) := by
  by_cases hi : insidePanel s.cfg (relocate s.offset w) = true
  · exact (traffics_fillWindow bytes hr hi).cleanEnd
  · rw [fillWindow_outside bytes hr hi]
    exact .refused (by decide)

theorem cleanEnd_clearOp (color : Half) (s : State) : CleanEnd s (clearOp color s) :=
  cleanEnd_whenReady (cleanEnd_fillWindow _ _)

theorem cleanEnd_drawOp (x y roww : Half) (bytes : List Byte) (s : State) : CleanEnd s (drawOp x y roww bytes s) := by
  refine cleanEnd_whenReady fun hr => ?_
  split
  · exact .refused (by decide)
  · exact cleanEnd_fillWindow _ _ hr

theorem perform_cleanEnd {f : Op} {s t : State} (hf : CleanEnd s (f s)) (h : perform f s = .next t) :
    ∃ r, CleanEnd s r ∧ t = respond r := by
  cases h
  exact ⟨f s, hf, rfl⟩

/-- Every host operation but INITIALIZE ends cleanly, whatever the link answers; RESET and SET_OFFSET always end Ok. -/
theorem exec_cleanEnd {i : Instr} {s t : State} (hi : i.hostOperation = true) (hn : i ≠ .initialise)
    (h : exec i s = .next t) : ∃ r, CleanEnd s r ∧ t = respond r := by
  cases i with
  | reset => exact perform_cleanEnd (resetOp_eq s ▸ .ok _) h
  | initialise => exact absurd rfl hn
  | setOrientation o => exact perform_cleanEnd (cleanEnd_setOrientationOp o s) h
  | setOffset dx dy => exact perform_cleanEnd (f := line (writeOffset dx dy)) (.ok _) h
  | setWindow x0 y0 x1 y1 => exact perform_cleanEnd (cleanEnd_setWindowOp _ s) h
  | writePixels bytes => exact perform_cleanEnd (cleanEnd_whenReady fun _ => (traffics_sendPix bytes s).cleanEnd) h
  | clear color => exact perform_cleanEnd (cleanEnd_clearOp color s) h
  | draw x y roww bytes => exact perform_cleanEnd (cleanEnd_drawOp x y roww bytes s) h
  | _ => cases hi

/-! ### What an error leaves (spec/60_exceptions.md R116) -/

theorem CleanEnd.of_validationError {s : State} {r : State × Result} {k : ErrKind} (h : CleanEnd s r)
    (hr : r.2 = .err k) (hk : k ≠ .busFault) : r = (s, .err k) := by
  cases h with
  | ok u => cases hr
  | refused _ => rw [← hr]
  | faulted es m n =>
    cases hr
    exact absurd rfl hk

theorem CleanEnd.of_busFault {s : State} {r : State × Result} (h : CleanEnd s r) (hr : r.2 = .err .busFault) :
    ∃ es m n, r = (cutOff (s.sent es m n), .err .busFault) := by
  cases h with
  | ok u => cases hr
  | refused hk =>
    cases hr
    exact absurd rfl hk
  | faulted es m n => exact ⟨es, m, n, rfl⟩

/-- The last result recorded is the operation's own. -/
theorem result_of_results {r : State × Result} {x : Result} {xs : List Result}
    (h : (respond r).results = xs ++ [x]) : r.2 = x :=
  List.singleton_inj.mp (List.append_inj' h rfl).2

/-- INITIALIZE checks nothing: it ends Ok or with BusFault. -/
theorem initOp_result (s : State) : (initOp s).2 = .ok ∨ (initOp s).2 = .err .busFault := by
  rcases initOp_cases s with h | ⟨_, _, _, -, h⟩
  · exact .inl (congrArg Prod.snd h)
  · exact .inr (congrArg Prod.snd h)

/-- Settles O28: INITIALIZE ends with no validation error, and every other operation ends cleanly. -/
theorem validationErrorsChangeNothing : Obligations.ValidationErrorsChangeNothing := by
  intro s t i k hi hk h hr
  by_cases hn : i = .initialise
  · subst hn
    cases h
    have own : (initOp s).2 = .err k := result_of_results hr
    rcases initOp_result s with hok | hbus
    · cases own.symm.trans hok
    · cases own.symm.trans hbus
      exact absurd rfl hk
  · obtain ⟨r, hc, rfl⟩ := exec_cleanEnd hi hn h
    rw [hc.of_validationError (result_of_results hr) hk]
    rfl

/-- Settles O29: the operation was cut off, and traffic writes none of the registers. -/
theorem busFaultKeepsRegisters : Obligations.BusFaultKeepsRegisters := by
  intro s t i hi hn h hr
  obtain ⟨r, hc, rfl⟩ := exec_cleanEnd hi hn h
  obtain ⟨es, m, n, rfl⟩ := hc.of_busFault (result_of_results hr)
  exact ⟨rfl, rfl, rfl, rfl, rfl, rfl, rfl⟩

end Sys2Proof.Machine
end

section
/-! PROOFS. The statements of spec/70_reset_and_hazards.md. -/

namespace Sys2Proof.Machine

/-- Settles O7: with no input left the fetch answers nothing, and the step keeps the state. -/
theorem idleStepChangesNothing : Obligations.IdleStepChangesNothing := by
  intro s h
  exact step_idle h

end Sys2Proof.Machine
end
